-- ==== Sys2Proof/Word.lean ====
section
/-! DEFINITION. The words of the machine: the widths 00_scope.md R7 fixes. Nothing is signed (R11). -/

namespace Sys2Proof

/-- An 8-bit value: a general register, a timer, a byte of memory (00_scope.md R7). -/
abbrev Byte := BitVec 8

/-- A 16-bit value: PC, I, a return address, an instruction word (00_scope.md R7). -/
abbrev Word := BitVec 16

/-- A 4-bit field of an instruction word: a register index, a row count, a key index (30_encoding.md R101). -/
abbrev Nibble := BitVec 4

/-- A 12-bit address field (30_encoding.md R101). -/
abbrev Addr12 := BitVec 12

end Sys2Proof
end

