-- ==== Sys2Proof/Machine/Parameters.lean ====
section
/-! DEFINITION. The parameters the spec names with a default value it does not vouch for (00_scope.md R7, 93 U10 to U12). -/

namespace Sys2Proof

/-- FONT: glyph g (0..15) at bytes 5g..5g+4, one byte per pixel row, top row first (10_state.md R52). The bytes are R52's
default, which the spec itself takes from general knowledge. Log entry 3 (UNVERIFIED, unsafe). -/
def Config.font : List Byte :=
  [0xF0, 0x90, 0x90, 0x90, 0xF0] ++ [0x20, 0x60, 0x20, 0x20, 0x70] ++
  [0xF0, 0x10, 0xF0, 0x80, 0xF0] ++ [0xF0, 0x10, 0xF0, 0x10, 0xF0] ++
  [0x90, 0x90, 0xF0, 0x10, 0x10] ++ [0xF0, 0x80, 0xF0, 0x10, 0xF0] ++
  [0xF0, 0x80, 0xF0, 0x90, 0xF0] ++ [0xF0, 0x10, 0x20, 0x40, 0x40] ++
  [0xF0, 0x90, 0xF0, 0x90, 0xF0] ++ [0xF0, 0x90, 0xF0, 0x10, 0xF0] ++
  [0xF0, 0x90, 0xF0, 0x90, 0x90] ++ [0xE0, 0x90, 0xE0, 0x90, 0xE0] ++
  [0xF0, 0x80, 0x80, 0x80, 0xF0] ++ [0xE0, 0x90, 0x90, 0x90, 0xE0] ++
  [0xF0, 0x80, 0xF0, 0x80, 0xF0] ++ [0xF0, 0x80, 0xF0, 0x80, 0x80]

/-- SPRITE_MSB_FIRST: bit 7 of a sprite byte is the leftmost column (44_display_random.md R303). Log entry 4 (UNVERIFIED, unsafe). -/
def Config.spriteMsbFirst : Bool := true

/-- SKIP9_ON_EQUAL: 9xy0 skips on equality in this hardware (41_control_flow.md R208, 92 D1). Log entry 5 (UNVERIFIED, unsafe). -/
def Config.skip9OnEqual : Bool := true

end Sys2Proof
end

