-- ==== Sys2Proof/Config.lean ====
section
/-! DEFINITION. What the spec leaves free. The parameters with a default (FONT, SPRITE_MSB_FIRST, SKIP9_ON_EQUAL) stand in
Sys2Proof/Machine/Parameters.lean. -/

namespace Sys2Proof

/-- The random bytes, `RND` of 40_datapath.md R143: the byte the host supplies for the k-th draw. It has no body, so nothing
can be proved of its value: "any of the 256 values may occur at any step, with no relation between steps".
Log entry 2 (DESIGN CHOICE: how the free byte reaches the step; safe). -/
opaque Config.rnd : Nat → Byte

end Sys2Proof
end

