-- ==== Sys2Proof/Syntax.lean ====
section
/-! DEFINITION. The instruction set: the 35 forms of 30_encoding.md R107, in the table's order. -/

namespace Sys2Proof

/-- One constructor per row of spec/opcode_table.json. `x`, `y` are register indices, `n` a row count, `nn` a byte immediate,
`nnn` an address immediate (30_encoding.md R101, R103); `z` is the nibble 8x_6 and 8x_E do not decode (R104, log entry 7). -/
inductive Instr where
  | nop                              -- 0000
  | cls                              -- 00E0
  | ret                              -- 00EE
  | jp (nnn : Addr12)                -- 1nnn
  | call (nnn : Addr12)              -- 2nnn
  | seImm (x : Nibble) (nn : Byte)   -- 3xnn
  | sneImm (x : Nibble) (nn : Byte)  -- 4xnn
  | seReg (x y : Nibble)             -- 5xy0
  | ldImm (x : Nibble) (nn : Byte)   -- 6xnn
  | addImm (x : Nibble) (nn : Byte)  -- 7xnn
  | ldReg (x y : Nibble)             -- 8xy0
  | or (x y : Nibble)                -- 8xy1
  | and (x y : Nibble)               -- 8xy2
  | xor (x y : Nibble)               -- 8xy3
  | addReg (x y : Nibble)            -- 8xy4
  | sub (x y : Nibble)               -- 8xy5
  | shr (x z : Nibble)               -- 8x_6
  | subn (x y : Nibble)              -- 8xy7
  | shl (x z : Nibble)               -- 8x_E
  | se9Reg (x y : Nibble)            -- 9xy0
  | ldI (nnn : Addr12)               -- Annn
  | jpV0 (nnn : Addr12)              -- Bnnn
  | rnd (x : Nibble) (nn : Byte)     -- Cxnn
  | drw (x y n : Nibble)             -- Dxyn
  | skp (x : Nibble)                 -- Ex9E
  | sknp (x : Nibble)                -- ExA1
  | ldVxDt (x : Nibble)              -- Fx07
  | ldVxK (x : Nibble)               -- Fx0A
  | ldDtVx (x : Nibble)              -- Fx15
  | ldStVx (x : Nibble)              -- Fx18
  | addIVx (x : Nibble)              -- Fx1E
  | ldFVx (x : Nibble)               -- Fx29
  | ldBVx (x : Nibble)               -- Fx33
  | ldMemVx (x : Nibble)             -- Fx55
  | ldVxMem (x : Nibble)             -- Fx65
deriving DecidableEq, Repr

end Sys2Proof
end

