-- ==== Sys2Proof/WellFormed.lean ====
section
/-! DEFINITION. Which instructions and which words are well formed: the decode table of 30_encoding.md R107 as masks and
matches. The types of `Instr` already hold every field at its width and R103 allows every value of every field, so the only
check left is on a WORD: it must match a row of the table (R105, R109). -/

namespace Sys2Proof

/-- A row of the decode table: "A word w is the instruction in a row when w AND mask = match" (30_encoding.md R107). -/
structure OpRow where
  pattern : Word
  mask    : Word
deriving DecidableEq, Repr

/-- `w AND mask = match` (30_encoding.md R107). -/
def OpRow.accepts (r : OpRow) (w : Word) : Bool := w &&& r.mask == r.pattern

/-- The table's row of an instruction (30_encoding.md R107; spec/opcode_table.json, `match` and `mask`). -/
def Instr.row : Instr → OpRow
  | .nop        => ⟨0x0000, 0xFFFF⟩
  | .cls        => ⟨0x00E0, 0xFFFF⟩
  | .ret        => ⟨0x00EE, 0xFFFF⟩
  | .jp _       => ⟨0x1000, 0xF000⟩
  | .call _     => ⟨0x2000, 0xF000⟩
  | .seImm _ _  => ⟨0x3000, 0xF000⟩
  | .sneImm _ _ => ⟨0x4000, 0xF000⟩
  | .seReg _ _  => ⟨0x5000, 0xF00F⟩
  | .ldImm _ _  => ⟨0x6000, 0xF000⟩
  | .addImm _ _ => ⟨0x7000, 0xF000⟩
  | .ldReg _ _  => ⟨0x8000, 0xF00F⟩
  | .or _ _     => ⟨0x8001, 0xF00F⟩
  | .and _ _    => ⟨0x8002, 0xF00F⟩
  | .xor _ _    => ⟨0x8003, 0xF00F⟩
  | .addReg _ _ => ⟨0x8004, 0xF00F⟩
  | .sub _ _    => ⟨0x8005, 0xF00F⟩
  | .shr _ _    => ⟨0x8006, 0xF00F⟩
  | .subn _ _   => ⟨0x8007, 0xF00F⟩
  | .shl _ _    => ⟨0x800E, 0xF00F⟩
  | .se9Reg _ _ => ⟨0x9000, 0xF00F⟩
  | .ldI _      => ⟨0xA000, 0xF000⟩
  | .jpV0 _     => ⟨0xB000, 0xF000⟩
  | .rnd _ _    => ⟨0xC000, 0xF000⟩
  | .drw _ _ _  => ⟨0xD000, 0xF000⟩
  | .skp _      => ⟨0xE09E, 0xF0FF⟩
  | .sknp _     => ⟨0xE0A1, 0xF0FF⟩
  | .ldVxDt _   => ⟨0xF007, 0xF0FF⟩
  | .ldVxK _    => ⟨0xF00A, 0xF0FF⟩
  | .ldDtVx _   => ⟨0xF015, 0xF0FF⟩
  | .ldStVx _   => ⟨0xF018, 0xF0FF⟩
  | .addIVx _   => ⟨0xF01E, 0xF0FF⟩
  | .ldFVx _    => ⟨0xF029, 0xF0FF⟩
  | .ldBVx _    => ⟨0xF033, 0xF0FF⟩
  | .ldMemVx _  => ⟨0xF055, 0xF0FF⟩
  | .ldVxMem _  => ⟨0xF065, 0xF0FF⟩

/-- The 35 rows of 30_encoding.md R107. -/
def opTable : List OpRow :=
  [Instr.row .nop, Instr.row .cls, Instr.row .ret, Instr.row (.jp 0), Instr.row (.call 0), Instr.row (.seImm 0 0),
   Instr.row (.sneImm 0 0), Instr.row (.seReg 0 0), Instr.row (.ldImm 0 0), Instr.row (.addImm 0 0)] ++
  [Instr.row (.ldReg 0 0), Instr.row (.or 0 0), Instr.row (.and 0 0), Instr.row (.xor 0 0), Instr.row (.addReg 0 0),
   Instr.row (.sub 0 0), Instr.row (.shr 0 0), Instr.row (.subn 0 0), Instr.row (.shl 0 0), Instr.row (.se9Reg 0 0)] ++
  [Instr.row (.ldI 0), Instr.row (.jpV0 0), Instr.row (.rnd 0 0), Instr.row (.drw 0 0 0), Instr.row (.skp 0),
   Instr.row (.sknp 0), Instr.row (.ldVxDt 0), Instr.row (.ldVxK 0), Instr.row (.ldDtVx 0), Instr.row (.ldStVx 0)] ++
  [Instr.row (.addIVx 0), Instr.row (.ldFVx 0), Instr.row (.ldBVx 0), Instr.row (.ldMemVx 0), Instr.row (.ldVxMem 0)]

/-- A word is well formed when it matches a row of the table; any other is an unrecognized opcode (30_encoding.md R105). -/
def wordWellFormed (w : Word) : Bool := opTable.any fun r => r.accepts w

/-- Every instruction is well formed: R103 gives every value of every field a meaning, and "no encoding with x = 0xF or y = 0xF
is refused" (90_conflicts.md C10). -/
def Instr.wellFormed (_ : Instr) : Bool := true

end Sys2Proof
end

