-- ==== Sys2Proof/Decode.lean ====
section
/-! DEFINITION. The decoder, total on any bytes, rejecting by name (30_encoding.md R100 to R112), and after it the encoder. Decode
reads only the word, never the state (40_datapath.md R148). -/

namespace Sys2Proof

/-- Why bytes decode to nothing: too few of them, or a word of one of the six families of 30_encoding.md R109. -/
inductive DecodeError where
  | tooShort        -- fewer than two bytes: an instruction is always one 16-bit word (R100)
  | systemWord      -- d1 = 0, not 0000, 00E0 or 00EE
  | skipEqualWord   -- 5xyN, N not 0
  | aluWord         -- 8xyN, N in 8, 9, A, B, C, D, F
  | skipNineWord    -- 9xyN, N not 0
  | keyWord         -- ExKK, KK not 9E or A1
  | miscWord        -- FxKK, KK none of the nine
deriving DecidableEq, Repr

/-- `d1 = w[15:12]`, the family selector (30_encoding.md R101). -/
def fieldD1 (w : Word) : Nibble := w.extractLsb' 12 4
/-- `x = d2 = w[11:8]` (30_encoding.md R101). -/
def fieldX (w : Word) : Nibble := w.extractLsb' 8 4
/-- `y = d3 = w[7:4]` (30_encoding.md R101). -/
def fieldY (w : Word) : Nibble := w.extractLsb' 4 4
/-- `n = d4 = w[3:0]` (30_encoding.md R101). -/
def fieldN (w : Word) : Nibble := w.extractLsb' 0 4
/-- `nn = w[7:0]` (30_encoding.md R101). -/
def fieldNN (w : Word) : Byte := w.extractLsb' 0 8
/-- `nnn = w[11:0]` (30_encoding.md R101). -/
def fieldNNN (w : Word) : Addr12 := w.extractLsb' 0 12

/-- Family 0: all 16 bits (30_encoding.md R106). -/
def decodeSystem (w : Word) : Except DecodeError Instr :=
  if w = 0x0000 then .ok .nop
  else if w = 0x00E0 then .ok .cls
  else if w = 0x00EE then .ok .ret
  else .error .systemWord

/-- Family 8, by d4 (30_encoding.md R106). -/
def decodeAlu (w : Word) : Except DecodeError Instr :=
  let x := fieldX w
  let y := fieldY w
  let d4 := fieldN w
  if d4 = 0x0 then .ok (.ldReg x y)
  else if d4 = 0x1 then .ok (.or x y)
  else if d4 = 0x2 then .ok (.and x y)
  else if d4 = 0x3 then .ok (.xor x y)
  else if d4 = 0x4 then .ok (.addReg x y)
  else if d4 = 0x5 then .ok (.sub x y)
  else if d4 = 0x6 then .ok (.shr x y)
  else if d4 = 0x7 then .ok (.subn x y)
  else if d4 = 0xE then .ok (.shl x y)
  else .error .aluWord

/-- Family E, by d3 d4 (30_encoding.md R106). -/
def decodeKey (w : Word) : Except DecodeError Instr :=
  if fieldNN w = 0x9E then .ok (.skp (fieldX w))
  else if fieldNN w = 0xA1 then .ok (.sknp (fieldX w))
  else .error .keyWord

/-- Family F, by d3 d4 (30_encoding.md R106). -/
def decodeMisc (w : Word) : Except DecodeError Instr :=
  let x := fieldX w
  let kk := fieldNN w
  if kk = 0x07 then .ok (.ldVxDt x)
  else if kk = 0x0A then .ok (.ldVxK x)
  else if kk = 0x15 then .ok (.ldDtVx x)
  else if kk = 0x18 then .ok (.ldStVx x)
  else if kk = 0x1E then .ok (.addIVx x)
  else if kk = 0x29 then .ok (.ldFVx x)
  else if kk = 0x33 then .ok (.ldBVx x)
  else if kk = 0x55 then .ok (.ldMemVx x)
  else if kk = 0x65 then .ok (.ldVxMem x)
  else .error .miscWord

/-- Decode of a word by its family nibble d1 (30_encoding.md R105, R106, R107). -/
def decodeWord (w : Word) : Except DecodeError Instr :=
  let d1 := fieldD1 w
  if d1 = 0x0 then decodeSystem w
  else if d1 = 0x1 then .ok (.jp (fieldNNN w))
  else if d1 = 0x2 then .ok (.call (fieldNNN w))
  else if d1 = 0x3 then .ok (.seImm (fieldX w) (fieldNN w))
  else if d1 = 0x4 then .ok (.sneImm (fieldX w) (fieldNN w))
  else if d1 = 0x5 then (if fieldN w = 0x0 then .ok (.seReg (fieldX w) (fieldY w)) else .error .skipEqualWord)
  else if d1 = 0x6 then .ok (.ldImm (fieldX w) (fieldNN w))
  else if d1 = 0x7 then .ok (.addImm (fieldX w) (fieldNN w))
  else if d1 = 0x8 then decodeAlu w
  else if d1 = 0x9 then (if fieldN w = 0x0 then .ok (.se9Reg (fieldX w) (fieldY w)) else .error .skipNineWord)
  else if d1 = 0xA then .ok (.ldI (fieldNNN w))
  else if d1 = 0xB then .ok (.jpV0 (fieldNNN w))
  else if d1 = 0xC then .ok (.rnd (fieldX w) (fieldNN w))
  else if d1 = 0xD then .ok (.drw (fieldX w) (fieldY w) (fieldN w))
  else if d1 = 0xE then decodeKey w
  else decodeMisc w                                              -- d1 = 0xF, the only value left

/-- The word at two bytes, high byte first (20_memory.md R74). -/
def wordOfBytes (hi lo : Byte) : Word := hi ++ lo

/-- Decode of a byte sequence: one instruction is always two bytes (30_encoding.md R100), and the rest is handed back. -/
def decodeBytes : List Byte → Except DecodeError (Instr × List Byte)
  | hi :: lo :: rest =>
    match decodeWord (wordOfBytes hi lo) with
    | .ok i => .ok (i, rest)
    | .error e => .error e
  | _ => .error .tooShort

/-- The two bytes of a word as they lie in memory, high byte first (20_memory.md R74). -/
def bytesOfWord (w : Word) : List Byte := [w.extractLsb' 8 8, w.extractLsb' 0 8]

/-- The word whose bits are `w`, of which the table gives the lowest `nbits`; every bit above is 0. -/
def tableWord (nbits w : Nat) : Word := BitVec.ofNat 16 (w % 2 ^ nbits)

/-- The instruction the decoder reads from an instruction whose bits are `w`, numbered as spec/opcode_table.json numbers them: an
instruction is one word (30_encoding.md R100), laid out high byte first. -/
def decodeTableWord (nbits w : Nat) : Option Instr :=
  match decodeBytes (bytesOfWord (tableWord nbits w)) with
  | .ok (i, _) => some i
  | .error _ => none

/-- The word of an instruction, from the encoding patterns of 30_encoding.md R107. -/
def encode : Instr → Word
  | .nop          => 0x0000
  | .cls          => 0x00E0
  | .ret          => 0x00EE
  | .jp nnn       => 0x1#4 ++ nnn
  | .call nnn     => 0x2#4 ++ nnn
  | .seImm x nn   => 0x3#4 ++ x ++ nn
  | .sneImm x nn  => 0x4#4 ++ x ++ nn
  | .seReg x y    => 0x5#4 ++ x ++ y ++ 0x0#4
  | .ldImm x nn   => 0x6#4 ++ x ++ nn
  | .addImm x nn  => 0x7#4 ++ x ++ nn
  | .ldReg x y    => 0x8#4 ++ x ++ y ++ 0x0#4
  | .or x y       => 0x8#4 ++ x ++ y ++ 0x1#4
  | .and x y      => 0x8#4 ++ x ++ y ++ 0x2#4
  | .xor x y      => 0x8#4 ++ x ++ y ++ 0x3#4
  | .addReg x y   => 0x8#4 ++ x ++ y ++ 0x4#4
  | .sub x y      => 0x8#4 ++ x ++ y ++ 0x5#4
  | .shr x z      => 0x8#4 ++ x ++ z ++ 0x6#4
  | .subn x y     => 0x8#4 ++ x ++ y ++ 0x7#4
  | .shl x z      => 0x8#4 ++ x ++ z ++ 0xE#4
  | .se9Reg x y   => 0x9#4 ++ x ++ y ++ 0x0#4
  | .ldI nnn      => 0xA#4 ++ nnn
  | .jpV0 nnn     => 0xB#4 ++ nnn
  | .rnd x nn     => 0xC#4 ++ x ++ nn
  | .drw x y n    => 0xD#4 ++ x ++ y ++ n
  | .skp x        => 0xE#4 ++ x ++ 0x9E#8
  | .sknp x       => 0xE#4 ++ x ++ 0xA1#8
  | .ldVxDt x     => 0xF#4 ++ x ++ 0x07#8
  | .ldVxK x      => 0xF#4 ++ x ++ 0x0A#8
  | .ldDtVx x     => 0xF#4 ++ x ++ 0x15#8
  | .ldStVx x     => 0xF#4 ++ x ++ 0x18#8
  | .addIVx x     => 0xF#4 ++ x ++ 0x1E#8
  | .ldFVx x      => 0xF#4 ++ x ++ 0x29#8
  | .ldBVx x      => 0xF#4 ++ x ++ 0x33#8
  | .ldMemVx x    => 0xF#4 ++ x ++ 0x55#8
  | .ldVxMem x    => 0xF#4 ++ x ++ 0x65#8

end Sys2Proof
end

