-- ==== Sys2Proof/Machine/State.lean ====
section
/-! DEFINITION. The state of the machine, 10_state.md R30, as plain data, and its reset value (R51, 70_reset_and_hazards.md R450). -/

namespace Sys2Proof.Machine

/-- The reasons a step can STOP the model. There are none: every error condition of this hardware has an effect the spec
describes (60_exceptions.md R403: it writes FAULT and halts the datapath), so it is a next state (40_datapath.md R173). -/
inductive Fault where
deriving DecidableEq, Repr

/-- The reasons the model can decline to give a meaning. -/
inductive Refusal where
  /-- Raised by an arm of `exec` whose instruction has no meaning yet; no arm raises it in this model. Safe: the model stops
  where the hardware goes on. -/
  | notModelled (mnemonic : String)
deriving DecidableEq, Repr

/-- The fault causes of 60_exceptions.md R401. -/
inductive FaultCause where
  | none
  | fetchOob
  | illegalOpcode
  | stackOverflow
  | stackUnderflow
  | memOob
  | keyRange
  | loadOob
deriving DecidableEq, Repr

/-- FAULT, the fault status register (10_state.md R45). -/
structure FaultStatus where
  valid  : Bool
  cause  : FaultCause
  pc     : Word
  opcode : Word
  info   : Nat
deriving DecidableEq, Repr

/-- FAULT at reset: every field 0 (10_state.md R45). -/
def FaultStatus.clear : FaultStatus := ⟨false, .none, 0, 0, 0⟩

/-- Memory as (address, byte) pairs in one canonical form; an address that is not listed reads as reset left it (log entry 7).
The form and the operations stand in Machine/Ops.lean. -/
abbrev Memory := List Host.Cell

/-- DISP: 32 rows of 64 columns, row-major, as the bits READ_DISPLAY gives out: bit c of row r is the cell at column c, row r,
cell number r*64 + c, and 1 means lit (10_state.md R44, 40_datapath.md R141, R145; log entry 7). -/
abbrev Display := Vector (BitVec 64) 32

/-- The complete architectural state (10_state.md R30), and one field of the model's own, `rndDraws`. -/
structure State where
  v        : Vector Byte 16
  i        : Word
  pc       : Word
  sp       : Fin 17
  stack    : Vector Word 16
  dt       : Byte
  st       : Byte
  key      : Vector Bool 16
  disp     : Display
  mem      : Memory
  fault    : FaultStatus
  rndDraws : Nat
deriving DecidableEq, Repr

/-- The machine right after RESET (70_reset_and_hazards.md R450, 10_state.md R51). Memory lists nothing: an unlisted address
reads as reset left it, FONT and zeros (R50). `rndDraws` is the model's own field (log entry 2, DESIGN CHOICE). -/
def State.reset : State where
  v        := Vector.replicate 16 0
  i        := 0
  pc       := 0x200
  sp       := 0
  stack    := Vector.replicate 16 0
  dt       := 0
  st       := 0
  key      := Vector.replicate 16 false
  disp     := Vector.replicate 32 0
  mem      := []
  fault    := FaultStatus.clear
  rndDraws := 0

end Sys2Proof.Machine
end

