-- ==== Sys2Proof/Machine/Ops.lean ====
section
/-! DEFINITION. The named operations over memory, registers, stack, display and keys; fetching a word; raising a fault. -/

namespace Sys2Proof.Machine

/-! ## Memory (20_memory.md) -/

/-- What an address nothing has written reads as: reset's contents, FONT at 0x000..0x04F and 0 above (10_state.md R50). -/
def resetByte (a : Nat) : Byte := Config.font.getD a 0

/-- The byte at an address of a memory in canonical form. -/
def Memory.read : Memory → Nat → Byte
  | [], a => resetByte a
  | (b, w) :: m, a => if a = b then w else Memory.read m a

/-- Write one byte, keeping the canonical form: addresses rising, no entry equal to what an unlisted address reads as. -/
def Memory.write : Memory → Nat → Byte → Memory
  | [], a, v => if v = resetByte a then [] else [(a, v)]
  | (b, w) :: m, a, v =>
    if a < b then (if v = resetByte a then (b, w) :: m else (a, v) :: (b, w) :: m)
    else if a = b then (if v = resetByte a then m else (a, v) :: m)
    else (b, w) :: Memory.write m a v

/-- Every listed address is at least `lo` and below 4096, the addresses strictly rise, and no entry is reset's byte. -/
def Memory.wfFrom : Nat → Memory → Bool
  | _, [] => true
  | lo, (a, v) :: m => decide (lo ≤ a) && decide (a < 4096) && decide (v ≠ resetByte a) && Memory.wfFrom (a + 1) m

/-- The canonical form of memory over addresses 0x000..0xFFF (20_memory.md R70; log entry 7). -/
def Memory.wf (m : Memory) : Bool := Memory.wfFrom 0 m

/-- The `n` bytes from address `a` up. -/
def Memory.readList (m : Memory) : Nat → Nat → List Byte
  | _, 0 => []
  | a, n + 1 => m.read a :: Memory.readList m (a + 1) n

/-- Write the bytes from address `a` up. -/
def Memory.writeList : Memory → Nat → List Byte → Memory
  | m, _, [] => m
  | m, a, b :: bs => Memory.writeList (m.write a b) (a + 1) bs

/-- `n` bytes from address `a` up all exist. Addresses are exact naturals, with no 16-bit wrap (20_memory.md R76, R77), and an
access of no bytes touches none (44_display_random.md R302, n = 0). -/
def inRange (a n : Nat) : Bool := n == 0 || decide (a + n ≤ 4096)

/-! ## Updates of single fields -/

def State.setPc (s : State) (w : Word) : State := { s with pc := w }
def State.setI (s : State) (w : Word) : State := { s with i := w }
def State.setDt (s : State) (b : Byte) : State := { s with dt := b }
def State.setSt (s : State) (b : Byte) : State := { s with st := b }
def State.setDisp (s : State) (d : Display) : State := { s with disp := d }
def State.setMem (s : State) (m : Memory) : State := { s with mem := m }
def State.setRegs (s : State) (v : Vector Byte 16) : State := { s with v := v }
def State.setKeys (s : State) (k : Vector Bool 16) : State := { s with key := k }
def State.setFault (s : State) (f : FaultStatus) : State := { s with fault := f }
def State.setStack (s : State) (st : Vector Word 16) (sp : Fin 17) : State := { s with stack := st, sp := sp }
/-- One more free random byte has been drawn (log entry 2). -/
def State.countDraw (s : State) : State := { s with rndDraws := s.rndDraws + 1 }

/-! ## General registers (10_state.md R31, R32) -/

/-- `V[x]`. -/
def State.reg (s : State) (x : Nibble) : Byte := s.v[x.toNat]'x.isLt

/-- `V[x] <- b`. -/
def State.writeReg (s : State) (x : Nibble) (b : Byte) : State := s.setRegs (s.v.set x.toNat b x.isLt)

/-- `V[k] <- the first byte`, `V[k+1] <- the second`, and so on up to V15. -/
def loadRegs : Vector Byte 16 → Nat → List Byte → Vector Byte 16
  | v, _, [] => v
  | v, k, b :: bs => loadRegs (v.setIfInBounds k b) (k + 1) bs

/-! ## Memory accesses of an instruction (20_memory.md R76 to R78) -/

/-- Read `n` bytes from `I` up, or none when one of them does not exist. -/
def State.readBlock (s : State) (n : Nat) : Option (List Byte) :=
  if inRange s.i.toNat n then some (s.mem.readList s.i.toNat n) else none

/-- Write the bytes from `I` up, or nothing at all when one of them does not exist: "all-or-nothing" (20_memory.md R78). -/
def State.writeBlock (s : State) (bs : List Byte) : Option State :=
  if inRange s.i.toNat bs.length then some (s.setMem (s.mem.writeList s.i.toNat bs)) else none

/-! ## Return stack (10_state.md R40) -/

/-- `STACK[SP] <- w; SP <- SP + 1`, or none when SP = 16. -/
def State.push (s : State) (w : Word) : Option State :=
  if h : s.sp.val < 16 then some (s.setStack (s.stack.set s.sp.val w h) ⟨s.sp.val + 1, by omega⟩) else none

/-- `SP <- SP - 1; result = STACK[SP]`, or none when SP = 0. The slot keeps its value (41_control_flow.md R201). -/
def State.pop (s : State) : Option (Word × State) :=
  if s.sp.val = 0 then none
  else some (s.stack[s.sp.val - 1]'(by omega), s.setStack s.stack ⟨s.sp.val - 1, by omega⟩)

/-! ## Keys (10_state.md R43) -/

/-- `KEY[k]` for the value of a register, or none when it is no key index: the index is not masked (45_keys_timers.md R320). -/
def State.keyAt (s : State) (k : Byte) : Option Bool :=
  if h : k.toNat < 16 then some s.key[k.toNat] else none

/-- The position of the first `true`, counting from `k`. -/
def firstTrue : Nat → List Bool → Option Nat
  | _, [] => none
  | k, p :: ps => if p then some k else firstTrue (k + 1) ps

/-- The least pressed key: "scan key states low-to-high index" (45_keys_timers.md R323). -/
def State.leastKey (s : State) : Option Byte := (firstTrue 0 s.key.toList).map (BitVec.ofNat 8)

/-! ## Display (10_state.md R44, 44_display_random.md R302, R303) -/

/-- Cell `k = row*64 + col` is lit; there are 2048 cells. -/
def Display.lit (d : Display) (k : Nat) : Bool :=
  if h : k / 64 < 32 then d[k / 64].getLsbD (k % 64) else false

/-- `DISP[k] <- not DISP[k]`. -/
def Display.toggle (d : Display) (k : Nat) : Display :=
  if h : k / 64 < 32 then d.set (k / 64) (d[k / 64] ^^^ (1#64 <<< (k % 64))) h else d

/-- Every cell unlit (44_display_random.md R300). -/
def Display.dark : Display := Vector.replicate 32 0

/-- The sprite bit at column offset `col`: bit 7 is the leftmost column (44_display_random.md R303). -/
def spriteBit (b : Byte) (col : Nat) : Bool :=
  if Config.spriteMsbFirst then b.getLsbD (7 - col) else b.getLsbD col

/-- The cell at column offset `col` and row offset `row` of a sprite at (`cx`, `cy`), wrapping on a torus. -/
def spriteCell (cx cy : Byte) (row col : Nat) : Nat := (cy.toNat + row) % 32 * 64 + (cx.toNat + col) % 64

/-- The cells one row of a sprite touches, left to right. -/
def rowCells (cx cy : Byte) (row : Nat) (b : Byte) : List Nat :=
  ([0, 1, 2, 3, 4, 5, 6, 7].filter fun col => spriteBit b col).map fun col => spriteCell cx cy row col

/-- The cells a sprite touches, in the order the draw visits them: row by row from `row` on, left to right. -/
def spriteCells (cx cy : Byte) : Nat → List Byte → List Nat
  | _, [] => []
  | row, b :: bs => rowCells cx cy row b ++ spriteCells cx cy (row + 1) bs

/-- Toggle the cells one after the other; `hit` becomes true when a toggled cell was lit (44_display_random.md R302). -/
def drawCells : List Nat → Display → Bool → Display × Bool
  | [], d, hit => (d, hit)
  | k :: ks, d, hit => drawCells ks (Display.toggle d k) (hit || Display.lit d k)

/-! ## Program counter (40_datapath.md R160) -/

/-- The inputs of the program-counter multiplexer; RET carries the popped address. -/
inductive PcSel where
  | seq
  | skip
  | jump (nnn : Addr12)
  | jumpV0 (nnn : Addr12)
  | ret (popped : Word)
  | rewind
deriving DecidableEq, Repr

/-- The next PC. `s.pc` is the fetch address pc_f, since the meanings run on the state before fetch's advance. -/
def State.pcMux (s : State) : PcSel → Word
  | .seq => s.pc + 2
  | .skip => s.pc + 4
  | .jump nnn => nnn.setWidth 16
  | .jumpV0 nnn => nnn.setWidth 16 + (s.reg 0).setWidth 16
  | .ret popped => popped
  | .rewind => s.pc

/-- `PC` as an instruction's own rule reads it: the fetch address plus 2 (40_datapath.md R146). -/
def State.advancedPc (s : State) : Word := s.pc + 2

/-! ## Faults (60_exceptions.md R403) -/

/-- `raise Fault(cause, info)`: every write of the transaction is discarded, so the state is the one before it, plus FAULT. Taken
by every instruction that faults, by fetch, by decode and by LOAD. -/
def State.raise (s : State) (cause : FaultCause) (opcode : Word) (info : Nat) : State :=
  s.setFault ⟨true, cause, s.pc, opcode, info⟩

/-- The fault of an instruction with an out-of-range data address: info is `max(I, 4096)` (20_memory.md R78). -/
def State.raiseMemOob (s : State) (opcode : Word) : State := s.raise .memOob opcode (max s.i.toNat 4096)

/-- The 3-bit code of a cause (60_exceptions.md R401). -/
def FaultCause.code : FaultCause → BitVec 3
  | .none => 0
  | .fetchOob => 1
  | .illegalOpcode => 2
  | .stackOverflow => 3
  | .stackUnderflow => 4
  | .memOob => 5
  | .keyRange => 6
  | .loadOob => 7

/-! ## Fetch (40_datapath.md R147) -/

/-- The word at the program counter, high byte first, or none when pc_f + 1 is beyond memory. -/
def State.fetchWord (s : State) : Option Word :=
  if s.pc.toNat + 1 ≥ 4096 then none
  else some (wordOfBytes (s.mem.read s.pc.toNat) (s.mem.read (s.pc.toNat + 1)))

/-- Place a word where the next step fetches it, its high byte at PC. A halted datapath does not fetch, nor does one whose PC lies
beyond memory, so FAULT is cleared and such a PC moved to the entry point 0x200 first (log entry 6). -/
def State.placeWord (s : State) (w : Word) : State :=
  let s := if s.fault.valid then s.setFault FaultStatus.clear else s
  let s := if s.pc.toNat + 1 ≥ 4096 then s.setPc 0x200 else s
  s.setMem (s.mem.writeList s.pc.toNat (bytesOfWord w))

end Sys2Proof.Machine
end

