-- ==== Sys2Proof/Machine/Flags.lean ====
section
/-! DEFINITION. Every flag computation of the spec; VF is the only flag (10_state.md R46). -/

namespace Sys2Proof.Machine

/-- The byte VF gets for a flag: 0 or 1 (10_state.md R46). -/
def flagByte (f : Bool) : Byte := if f then 1 else 0

/-- Carry of 8xy4: 1 iff a + b is at least 256 (42_alu.md R236). -/
def carryFlag (a b : Byte) : Bool := decide (a.toNat + b.toNat ≥ 256)

/-- Not-borrow of `a - b`: 0 iff a is less than b (42_alu.md R237, R239). -/
def notBorrowFlag (a b : Byte) : Bool := !decide (a.toNat < b.toNat)

/-- The bit 8x_6 shifts out: bit 0 before the shift (42_alu.md R238). -/
def shrFlag (a : Byte) : Bool := a.getLsbD 0

/-- The bit 8x_E shifts out: bit 7 before the shift (42_alu.md R240). -/
def shlFlag (a : Byte) : Bool := a.getLsbD 7

/-- `V[0xF] <- f`, the flag side effect; it comes last in an instruction's writes (40_datapath.md R170). -/
def State.writeFlag (s : State) (f : Bool) : State := s.writeReg 0xF (flagByte f)

end Sys2Proof.Machine
end

