-- ==== Sys2Proof/Machine/Operands.lean ====
section
/-! DEFINITION. The operand forms and the datapath's units: read ports, immediates, the ALU, the address adder, the glyph multiplier,
the BCD unit and the skip comparator (40_datapath.md R149 to R153). Every port reads the state before any write of the step. -/

namespace Sys2Proof.Machine

/-- Port A reads V[x] (40_datapath.md R149). -/
def State.portA (s : State) (x : Nibble) : Byte := s.reg x

/-- Port B reads V[y] (40_datapath.md R149). -/
def State.portB (s : State) (y : Nibble) : Byte := s.reg y

/-- Fx55 reads V0..Vx as a block, x inclusive (40_datapath.md R149). -/
def State.regBlock (s : State) (x : Nibble) : List Byte := s.v.toList.take (x.toNat + 1)

/-- An address immediate, zero-extended to 16 bits (30_encoding.md R103). -/
def zextAddr (nnn : Addr12) : Word := nnn.setWidth 16

/-! ## The 8-bit ALU (40_datapath.md R150) -/

inductive AluOp where
  | passB
  | or
  | and
  | xor
  | add
  | addNf
  | sub
  | subr
  | shr
  | shl
deriving DecidableEq, Repr

/-- The ALU's 8-bit result. -/
def aluResult (op : AluOp) (a b : Byte) : Byte :=
  match op with
  | .passB => b
  | .or => a ||| b
  | .and => a &&& b
  | .xor => a ^^^ b
  | .add => a + b
  | .addNf => a + b
  | .sub => a - b
  | .subr => b - a
  | .shr => a >>> 1
  | .shl => a <<< 1

/-- The ALU's flag, for the operations that give one. -/
def aluFlag (op : AluOp) (a b : Byte) : Option Bool :=
  match op with
  | .add => some (carryFlag a b)
  | .sub => some (notBorrowFlag a b)
  | .subr => some (notBorrowFlag b a)
  | .shr => some (shrFlag a)
  | .shl => some (shlFlag a)
  | .passB => none
  | .or => none
  | .and => none
  | .xor => none
  | .addNf => none

/-- Writeback of an ALU instruction: the result to Vx, then the flag to VF, last (40_datapath.md R151, R170). -/
def State.aluWriteback (s : State) (op : AluOp) (x : Nibble) (a b : Byte) : State :=
  match aluFlag op a b with
  | none => s.writeReg x (aluResult op a b)
  | some f => (s.writeReg x (aluResult op a b)).writeFlag f

/-! ## The other units (40_datapath.md R152) -/

/-- `(I + Vx) mod 2^16` (43_index_memory.md R271). -/
def addIndex (i : Word) (b : Byte) : Word := i + b.setWidth 16

/-- `Vx * 5`, exact, with no mask (43_index_memory.md R272). -/
def glyphAddress (b : Byte) : Word := BitVec.ofNat 16 (b.toNat * 5)

/-- The hundreds, tens and ones digits of a byte (43_index_memory.md R273). -/
def bcdDigits (b : Byte) : List Byte :=
  [BitVec.ofNat 8 (b.toNat / 100), BitVec.ofNat 8 (b.toNat / 10 % 10), BitVec.ofNat 8 (b.toNat % 10)]

/-! ## The skip comparator and the multiplexer's use (40_datapath.md R153, R160) -/

/-- SKIP when the condition holds, else SEQ (41_control_flow.md R204). -/
def skipSel (c : Bool) : PcSel := if c then .skip else .seq

/-- The condition of 9xy0: equality in this hardware (41_control_flow.md R208). -/
def skip9Condition (a b : Byte) : Bool := if Config.skip9OnEqual then a == b else a != b

/-- The end of an instruction: PC gets the multiplexer's selection, computed from the state at the start of the step `s`, in the
state `t` that holds the instruction's other writes. -/
def State.finish (s t : State) (sel : PcSel) : State := t.setPc (s.pcMux sel)

/-- The whole of an ALU instruction: writeback, then PC by SEQ (42_alu.md). -/
def State.aluStep (s : State) (op : AluOp) (x : Nibble) (a b : Byte) : State :=
  s.finish (s.aluWriteback op x a b) .seq

/-- The whole of a skip instruction whose condition bit is `c` (41_control_flow.md R204). -/
def State.skipStep (s : State) (c : Bool) : State := s.finish s (skipSel c)

end Sys2Proof.Machine
end

