-- ==== Sys2Proof/Machine/ControlFlow.lean ====
section
/-! DEFINITION. Control flow instructions (41_control_flow.md): NOP, RET, JP, CALL, the skips on registers, JP V0. -/

namespace Sys2Proof.Machine

/-- 0000 NOP (R200). -/
def execNop (s : State) : Host.Outcome State Fault Refusal := .next (s.finish s .seq)

/-- 00EE RET (R201): pop into PC, or STACK_UNDERFLOW when SP = 0. -/
def execRet (s : State) : Host.Outcome State Fault Refusal :=
  match s.pop with
  | none => .next (s.raise .stackUnderflow (encode .ret) 0)
  | some (popped, t) => .next (s.finish t (.ret popped))

/-- 1nnn JP (R202). -/
def execJp (nnn : Addr12) (s : State) : Host.Outcome State Fault Refusal := .next (s.finish s (.jump nnn))

/-- 2nnn CALL (R203): push the advanced PC, then jump, or STACK_OVERFLOW when SP = 16. -/
def execCall (nnn : Addr12) (s : State) : Host.Outcome State Fault Refusal :=
  match s.push s.advancedPc with
  | none => .next (s.raise .stackOverflow (encode (.call nnn)) 0)
  | some t => .next (s.finish t (.jump nnn))

/-- 3xnn SE (R205). -/
def execSeImm (x : Nibble) (nn : Byte) (s : State) : Host.Outcome State Fault Refusal :=
  .next (s.skipStep (s.portA x == nn))

/-- 4xnn SNE (R206). -/
def execSneImm (x : Nibble) (nn : Byte) (s : State) : Host.Outcome State Fault Refusal :=
  .next (s.skipStep (s.portA x != nn))

/-- 5xy0 SE (R207). -/
def execSeReg (x y : Nibble) (s : State) : Host.Outcome State Fault Refusal :=
  .next (s.skipStep (s.portA x == s.portB y))

/-- 9xy0 SE9 (R208). -/
def execSe9Reg (x y : Nibble) (s : State) : Host.Outcome State Fault Refusal :=
  .next (s.skipStep (skip9Condition (s.portA x) (s.portB y)))

/-- Bnnn JP V0 (R209). -/
def execJpV0 (nnn : Addr12) (s : State) : Host.Outcome State Fault Refusal := .next (s.finish s (.jumpV0 nnn))

end Sys2Proof.Machine
end

