-- ==== Sys2Proof/Machine/DisplayRandom.lean ====
section
/-! DEFINITION. Display and random instructions (44_display_random.md). -/

namespace Sys2Proof.Machine

/-- 00E0 CLS (R300). -/
def execCls (s : State) : Host.Outcome State Fault Refusal := .next (s.finish (s.setDisp Display.dark) .seq)

/-- Cxnn RND (R301) on the random byte `r` of the step: the ALU's AND of `r` and nn (40_datapath.md R151). -/
def execRndWith (r : Byte) (x : Nibble) (nn : Byte) (s : State) : Host.Outcome State Fault Refusal :=
  .next (s.aluStep .and x r nn).countDraw

/-- Cxnn RND (R301). The random byte is the next free one: nothing constrains it (40_datapath.md R143; log entry 2). -/
def execRnd (x : Nibble) (nn : Byte) (s : State) : Host.Outcome State Fault Refusal :=
  execRndWith (Config.rnd s.rndDraws) x nn s

/-- The display and collision flag after drawing the sprite bytes at column `cx`, row `cy` (R302). -/
def State.drawSprite (s : State) (cx cy : Byte) (bytes : List Byte) : Display × Bool :=
  drawCells (spriteCells cx cy 0 bytes) s.disp false

/-- Dxyn DRW (R302): XOR-draw n rows from MEM[I..I+n-1] at column Vx, row Vy, VF := collision; or MEM_OOB. -/
def execDrw (x y n : Nibble) (s : State) : Host.Outcome State Fault Refusal :=
  match s.readBlock n.toNat with
  | none => .next (s.raiseMemOob (encode (.drw x y n)))
  | some bytes =>
    let drawn := s.drawSprite (s.portA x) (s.portB y) bytes
    .next (s.finish ((s.setDisp drawn.1).writeFlag drawn.2) .seq)

end Sys2Proof.Machine
end

