-- ==== Sys2Proof/Machine/IndexMemory.lean ====
section
/-! DEFINITION. Index register and memory instructions (43_index_memory.md). I is unchanged by the memory ones (R276). -/

namespace Sys2Proof.Machine

/-- Annn LD I (R270). -/
def execLdI (nnn : Addr12) (s : State) : Host.Outcome State Fault Refusal := .next (s.finish (s.setI (zextAddr nnn)) .seq)

/-- Fx1E ADD I (R271): no flag, no bounds check. -/
def execAddIVx (x : Nibble) (s : State) : Host.Outcome State Fault Refusal :=
  .next (s.finish (s.setI (addIndex s.i (s.portA x))) .seq)

/-- Fx29 LD F (R272). -/
def execLdFVx (x : Nibble) (s : State) : Host.Outcome State Fault Refusal :=
  .next (s.finish (s.setI (glyphAddress (s.portA x))) .seq)

/-- Fx33 LD B (R273): three digits to MEM[I..I+2], or MEM_OOB. -/
def execLdBVx (x : Nibble) (s : State) : Host.Outcome State Fault Refusal :=
  match s.writeBlock (bcdDigits (s.portA x)) with
  | none => .next (s.raiseMemOob (encode (.ldBVx x)))
  | some t => .next (s.finish t .seq)

/-- Fx55 LD [I] (R274): V0..Vx to MEM[I..I+x], or MEM_OOB. -/
def execLdMemVx (x : Nibble) (s : State) : Host.Outcome State Fault Refusal :=
  match s.writeBlock (s.regBlock x) with
  | none => .next (s.raiseMemOob (encode (.ldMemVx x)))
  | some t => .next (s.finish t .seq)

/-- Fx65 LD Vx, [I] (R275): MEM[I..I+x] to V0..Vx, or MEM_OOB. -/
def execLdVxMem (x : Nibble) (s : State) : Host.Outcome State Fault Refusal :=
  match s.readBlock (x.toNat + 1) with
  | none => .next (s.raiseMemOob (encode (.ldVxMem x)))
  | some bs => .next (s.finish (s.setRegs (loadRegs s.v 0 bs)) .seq)

end Sys2Proof.Machine
end

