-- ==== Sys2Proof/Machine/KeysTimers.lean ====
section
/-! DEFINITION. Key and timer instructions (45_keys_timers.md). -/

namespace Sys2Proof.Machine

/-- Ex9E SKP (R320): skip if the key numbered Vx is pressed, or KEY_RANGE. -/
def execSkp (x : Nibble) (s : State) : Host.Outcome State Fault Refusal :=
  match s.keyAt (s.portA x) with
  | none => .next (s.raise .keyRange (encode (.skp x)) (s.portA x).toNat)
  | some pressed => .next (s.skipStep pressed)

/-- ExA1 SKNP (R321): skip if the key numbered Vx is not pressed, or KEY_RANGE. -/
def execSknp (x : Nibble) (s : State) : Host.Outcome State Fault Refusal :=
  match s.keyAt (s.portA x) with
  | none => .next (s.raise .keyRange (encode (.sknp x)) (s.portA x).toNat)
  | some pressed => .next (s.skipStep (!pressed))

/-- Fx07 LD Vx, DT (R322). -/
def execLdVxDt (x : Nibble) (s : State) : Host.Outcome State Fault Refusal := .next (s.finish (s.writeReg x s.dt) .seq)

/-- Fx0A LD Vx, K (R323): the least pressed key to Vx, or PC stays at pc_f. -/
def execLdVxK (x : Nibble) (s : State) : Host.Outcome State Fault Refusal :=
  match s.leastKey with
  | some k => .next (s.finish (s.writeReg x k) .seq)
  | none => .next (s.finish s .rewind)

/-- Fx15 LD DT (R324). -/
def execLdDtVx (x : Nibble) (s : State) : Host.Outcome State Fault Refusal := .next (s.finish (s.setDt (s.portA x)) .seq)

/-- Fx18 LD ST (R325). -/
def execLdStVx (x : Nibble) (s : State) : Host.Outcome State Fault Refusal := .next (s.finish (s.setSt (s.portA x)) .seq)

end Sys2Proof.Machine
end

