-- ==== Sys2Proof/Machine/RegisterAlu.lean ====
section
/-! DEFINITION. Register and ALU instructions (42_alu.md); how each drives the ALU is 40_datapath.md R151. An operand the table of
R151 leaves out is given as 0 and not read. -/

namespace Sys2Proof.Machine

/-- 6xnn LD (R230). -/
def execLdImm (x : Nibble) (nn : Byte) (s : State) : Host.Outcome State Fault Refusal := .next (s.aluStep .passB x 0 nn)

/-- 7xnn ADD (R231): no flag. -/
def execAddImm (x : Nibble) (nn : Byte) (s : State) : Host.Outcome State Fault Refusal :=
  .next (s.aluStep .addNf x (s.portA x) nn)

/-- 8xy0 LD (R232). -/
def execLdReg (x y : Nibble) (s : State) : Host.Outcome State Fault Refusal := .next (s.aluStep .passB x 0 (s.portB y))

/-- 8xy1 OR (R233). -/
def execOr (x y : Nibble) (s : State) : Host.Outcome State Fault Refusal := .next (s.aluStep .or x (s.portA x) (s.portB y))

/-- 8xy2 AND (R234). -/
def execAnd (x y : Nibble) (s : State) : Host.Outcome State Fault Refusal := .next (s.aluStep .and x (s.portA x) (s.portB y))

/-- 8xy3 XOR (R235). -/
def execXor (x y : Nibble) (s : State) : Host.Outcome State Fault Refusal := .next (s.aluStep .xor x (s.portA x) (s.portB y))

/-- 8xy4 ADD (R236). -/
def execAddReg (x y : Nibble) (s : State) : Host.Outcome State Fault Refusal := .next (s.aluStep .add x (s.portA x) (s.portB y))

/-- 8xy5 SUB (R237). -/
def execSub (x y : Nibble) (s : State) : Host.Outcome State Fault Refusal := .next (s.aluStep .sub x (s.portA x) (s.portB y))

/-- 8x_6 SHR (R238): Vx is shifted, Vy is not read. -/
def execShr (x : Nibble) (s : State) : Host.Outcome State Fault Refusal := .next (s.aluStep .shr x (s.portA x) 0)

/-- 8xy7 SUBN (R239). -/
def execSubn (x y : Nibble) (s : State) : Host.Outcome State Fault Refusal := .next (s.aluStep .subr x (s.portA x) (s.portB y))

/-- 8x_E SHL (R240): Vx is shifted, Vy is not read. -/
def execShl (x : Nibble) (s : State) : Host.Outcome State Fault Refusal := .next (s.aluStep .shl x (s.portA x) 0)

end Sys2Proof.Machine
end

