-- ==== Sys2Proof/Machine/Step.lean ====
section
/-! DEFINITION. The execute step, the STEP transaction of 40_datapath.md R146. -/

namespace Sys2Proof.Machine

/-- One fetch-decode-execute cycle (40_datapath.md R146): nothing when halted (R174), FETCH_OOB when the word is beyond memory
(R147), ILLEGAL_OPCODE when it is unrecognized (30_encoding.md R112), else the instruction's meaning. -/
def step (s : State) : Host.Outcome State Fault Refusal :=
  if s.fault.valid then .next s
  else match s.fetchWord with
    | none => .next (s.raise .fetchOob 0 s.pc.toNat)
    | some w => match decodeWord w with
      | .error _ => .next (s.raise .illegalOpcode w 0)
      | .ok i => exec i s

/-- `s` with the instruction whose bits are `w` placed where `step` fetches next (log entries 1 and 6). -/
def State.withFetchWord (s : State) (nbits w : Nat) : State := s.placeWord (tableWord nbits w)

end Sys2Proof.Machine
end

