-- ==== Sys2Proof/Machine/Transactions.lean ====
section
/-! DEFINITION. The block's interface: the seven transactions of 40_datapath.md R141, each one indivisible (R142). The host may issue
them in any order (R175); no cadence is part of the model (log entry 9). -/

namespace Sys2Proof.Machine

/-- RESET (70_reset_and_hazards.md R450): every field of the spec's state to its reset value, from any state. The count of free
random bytes drawn is not the machine's, so it goes on (log entry 2). -/
def State.restart (s : State) : State := { State.reset with rndDraws := s.rndDraws }

/-- LOAD (20_memory.md R89): the bytes to MEM[0x200..], or LOAD_OOB and nothing written. Nothing when halted (40_datapath.md R174). -/
def State.load (bytes : List Byte) (s : State) : State :=
  if s.fault.valid then s
  else if bytes.length > 3584 then s.raise .loadOob 0 bytes.length
  else s.setMem (s.mem.writeList 0x200 bytes)

/-- A timer counts down one and stays at 0 (60_exceptions.md R420). -/
def countDown (b : Byte) : Byte := if b = 0 then 0 else b - 1

/-- TICK (60_exceptions.md R420): both timers, each on its own. Nothing when halted. -/
def State.tick (s : State) : State :=
  if s.fault.valid then s else (s.setDt (countDown s.dt)).setSt (countDown s.st)

/-- SOUND_STOP, the optional observation at a TICK that moves ST from 1 to 0; it changes no state (60_exceptions.md R421; log entry 8). -/
def State.soundStop (s : State) : Bool := !s.fault.valid && s.st == 1

/-- SET_KEY (40_datapath.md R144): the index port is 4 bits wide. Nothing when halted (R174). -/
def State.setKey (k : Nibble) (p : Bool) (s : State) : State :=
  if s.fault.valid then s else s.setKeys (s.key.set k.toNat p k.isLt)

/-- READ_DISPLAY (40_datapath.md R145): the 2048 cells, row-major, as 32 rows of 64 bits. -/
def State.readDisplay (s : State) : Display := s.disp

/-- READ_FAULT (40_datapath.md R141). -/
def State.readFault (s : State) : FaultStatus := s.fault

/-- The seven transactions (40_datapath.md R141). -/
inductive Transaction where
  | reset
  | load (bytes : List Byte)
  | step
  | tick
  | setKey (k : Nibble) (p : Bool)
  | readDisplay
  | readFault
deriving DecidableEq, Repr

/-- What a transaction gives back to the host (40_datapath.md R141; SOUND_STOP, 60_exceptions.md R421). -/
inductive Reply where
  | nothing
  | soundStop
  | display (d : Display)
  | fault (f : FaultStatus)
deriving DecidableEq, Repr

/-- The state after a transaction. -/
def transact (t : Transaction) (s : State) : Host.Outcome State Fault Refusal :=
  match t with
  | .reset => .next s.restart
  | .load bytes => .next (s.load bytes)
  | .step => Sys2Proof.Machine.step s
  | .tick => .next s.tick
  | .setKey k p => .next (s.setKey k p)
  | .readDisplay => .next s
  | .readFault => .next s

/-- The host's view of a transaction: its outputs, read from the state it is issued in. -/
def reply (t : Transaction) (s : State) : Reply :=
  match t with
  | .reset => .nothing
  | .load _ => .nothing
  | .step => .nothing
  | .tick => if s.soundStop then .soundStop else .nothing
  | .setKey _ _ => .nothing
  | .readDisplay => .display s.readDisplay
  | .readFault => .fault s.readFault

/-- A schedule of transactions, one after the other, stopping where one stops. -/
def transactAll : List Transaction → State → Host.Outcome State Fault Refusal
  | [], s => .next s
  | t :: ts, s =>
    match transact t s with
    | .next s' => transactAll ts s'
    | .fault r => .fault r
    | .refused r => .refused r

end Sys2Proof.Machine
end

