-- ==== Sys2Proof/Safety.lean ====
section
/-! DEFINITION. What counts as a good state and a safe run, in the terms the claims use: running and halted, the reset values, the
machine's invariant, which instruction may fault how, and which instruction may write what. -/

namespace Sys2Proof.Machine

/-- The datapath is halted by a fault (40_datapath.md R174). -/
abbrev State.halted (s : State) : Prop := s.fault.valid = true

/-- The datapath is running: a run is safe as long as this holds. -/
abbrev State.running (s : State) : Prop := s.fault.valid = false

/-- A word is one of the 35 forms; any other is an unrecognized opcode (30_encoding.md R105). -/
def recognized (w : Word) : Bool :=
  match decodeWord w with
  | .ok _ => true
  | .error _ => false

/-- Every field the spec names has the value of 10_state.md R51. -/
def AtResetValues (s : State) : Prop :=
  (∀ x : Nibble, s.reg x = 0) ∧ s.i = 0 ∧ s.pc = 0x200 ∧ s.sp.val = 0 ∧ (∀ k : Fin 16, s.stack[k] = 0) ∧
  s.dt = 0 ∧ s.st = 0 ∧ (∀ k : Fin 16, s.key[k] = false) ∧ (∀ k, Display.lit s.disp k = false) ∧
  (∀ a, a < 0x50 → s.mem.read a = Config.font.getD a 0) ∧ (∀ a, 0x50 ≤ a → s.mem.read a = 0) ∧
  s.fault = ⟨false, .none, 0, 0, 0⟩

/-- What every reachable state satisfies: memory in canonical form, PC at most 0x10FE (10_state.md R36), every return address at
most 0x1000 (40_datapath.md R161), FAULT all zero while running, and a named cause recorded at the PC once halted (R403). -/
def StateInv (s : State) : Prop :=
  s.mem.wf = true ∧ s.pc.toNat ≤ 0x10FE ∧ (∀ k : Fin 16, s.stack[k].toNat ≤ 0x1000) ∧
  (s.running → s.fault = FaultStatus.clear) ∧ (s.halted → s.fault.cause ≠ .none ∧ s.fault.pc = s.pc)

/-- The execute-stage fault of an instruction in a state: its cause and FAULT.info, when it faults (60_exceptions.md R401, R402). -/
def execFault (i : Instr) (s : State) : Option (FaultCause × Nat) :=
  match i with
  | .call _ => if s.sp.val = 16 then some (.stackOverflow, 0) else none
  | .ret => if s.sp.val = 0 then some (.stackUnderflow, 0) else none
  | .drw _ _ n => if n ≠ 0 ∧ s.i.toNat + n.toNat - 1 ≥ 4096 then some (.memOob, max s.i.toNat 4096) else none
  | .ldBVx _ => if s.i.toNat + 2 ≥ 4096 then some (.memOob, max s.i.toNat 4096) else none
  | .ldMemVx x => if s.i.toNat + x.toNat ≥ 4096 then some (.memOob, max s.i.toNat 4096) else none
  | .ldVxMem x => if s.i.toNat + x.toNat ≥ 4096 then some (.memOob, max s.i.toNat 4096) else none
  | .skp x => if (s.reg x).toNat ≥ 16 then some (.keyRange, (s.reg x).toNat) else none
  | .sknp x => if (s.reg x).toNat ≥ 16 then some (.keyRange, (s.reg x).toNat) else none
  | .nop | .cls | .jp _ | .seImm _ _ | .sneImm _ _ | .seReg _ _ | .ldImm _ _ | .addImm _ _ | .ldReg _ _ | .or _ _ | .and _ _
  | .xor _ _ | .addReg _ _ | .sub _ _ | .shr _ _ | .subn _ _ | .shl _ _ | .se9Reg _ _ | .ldI _ | .jpV0 _ | .rnd _ _
  | .ldVxDt _ | .ldVxK _ | .ldDtVx _ | .ldStVx _ | .addIVx _ | .ldFVx _ => none

/-- A place an instruction may write, PC and FAULT apart. -/
inductive Loc where
  | reg (r : Nibble)
  | index
  | sp
  | stack (k : Fin 16)
  | dt
  | st
  | key (k : Fin 16)
  | cell (k : Nat)
  | mem (a : Nat)
  | draws
deriving DecidableEq, Repr

/-- Two states hold the same at a place. -/
def agreesAt (s t : State) : Loc → Prop
  | .reg r => t.reg r = s.reg r
  | .index => t.i = s.i
  | .sp => t.sp = s.sp
  | .stack k => t.stack[k] = s.stack[k]
  | .dt => t.dt = s.dt
  | .st => t.st = s.st
  | .key k => t.key[k] = s.key[k]
  | .cell k => Display.lit t.disp k = Display.lit s.disp k
  | .mem a => t.mem.read a = s.mem.read a
  | .draws => t.rndDraws = s.rndDraws

/-- The writeback destinations of an instruction in a state (40_datapath.md R171); `draws` is the model's own (log entry 2). -/
def writes (i : Instr) (s : State) (l : Loc) : Bool :=
  match i with
  | .nop | .jp _ | .seImm _ _ | .sneImm _ _ | .seReg _ _ | .se9Reg _ _ | .jpV0 _ | .skp _ | .sknp _ => false
  | .cls => match l with | .cell _ => true | _ => false
  | .ret => l == .sp
  | .call _ => l == .sp || (match l with | .stack k => k.val == s.sp.val | _ => false)
  | .ldImm x _ | .addImm x _ | .ldReg x _ | .or x _ | .and x _ | .xor x _ | .ldVxDt x | .ldVxK x => l == .reg x
  | .rnd x _ => l == .reg x || l == .draws
  | .addReg x _ | .sub x _ | .shr x _ | .subn x _ | .shl x _ => l == .reg x || l == .reg 0xF
  | .ldI _ | .addIVx _ | .ldFVx _ => l == .index
  | .drw _ _ _ => match l with | .cell _ => true | .reg r => r == 0xF | _ => false
  | .ldDtVx _ => l == .dt
  | .ldStVx _ => l == .st
  | .ldBVx _ => match l with | .mem a => decide (s.i.toNat ≤ a ∧ a ≤ s.i.toNat + 2) | _ => false
  | .ldMemVx x => match l with | .mem a => decide (s.i.toNat ≤ a ∧ a ≤ s.i.toNat + x.toNat) | _ => false
  | .ldVxMem x => match l with | .reg r => decide (r.toNat ≤ x.toNat) | _ => false

/-- A draw of `n` rows from I at (Vx, Vy) touches cell `k`: some set sprite bit lands there, bit 7 leftmost, on a torus of 64
columns by 32 rows (44_display_random.md R302, R303). -/
def SpriteTouches (s : State) (x y n : Nibble) (k : Nat) : Prop :=
  ∃ row col, row < n.toNat ∧ col < 8 ∧ (s.mem.read (s.i.toNat + row)).getLsbD (7 - col) = true ∧
    k = ((s.reg y).toNat + row) % 32 * 64 + ((s.reg x).toNat + col) % 64

end Sys2Proof.Machine
end

