-- ==== Sys2Proof/Certificates/Slice0/Obligations.lean ====
section
/-! DEFINITION. The statements for the provers. `s` is the state before fetch's advance, so `s.pc` is pc_f (NOTES.md, How to read exec). -/

open Sys2Proof Sys2Proof.Machine

/-! ## Encoding and decoding -/

/-- Fifteen words written out bit by bit from 30_encoding.md R107, from the leading nibbles 0 to 3, 7 to 9 and B to F. -/
def Obligations.SampleWordsDecode : Prop :=
  decodeWord 0b0000000000000000 = .ok .nop ∧ decodeWord 0b0000000011100000 = .ok .cls ∧
  decodeWord 0b0000000011101110 = .ok .ret ∧ decodeWord 0b0001001000110100 = .ok (.jp 0x234) ∧
  decodeWord 0b0010001100000000 = .ok (.call 0x300) ∧ decodeWord 0b0011001100101010 = .ok (.seImm 3 0x2A) ∧
  decodeWord 0b0111000100100000 = .ok (.addImm 1 0x20) ∧ decodeWord 0b1000000100100101 = .ok (.sub 1 2) ∧
  decodeWord 0b1000000100101110 = .ok (.shl 1 2) ∧ decodeWord 0b1001000100100000 = .ok (.se9Reg 1 2) ∧
  decodeWord 0b1011000111111111 = .ok (.jpV0 0x1FF) ∧ decodeWord 0b1100001100001111 = .ok (.rnd 3 0x0F) ∧
  decodeWord 0b1101000000010101 = .ok (.drw 0 1 5) ∧ decodeWord 0b1110001010100001 = .ok (.sknp 2) ∧
  decodeWord 0b1111001001010101 = .ok (.ldMemVx 2)

/-- Decoding the encoding of any instruction gives it back: no bit of an encoding is dropped (30_encoding.md sections 1 to 3). -/
def Obligations.DecodeOfEncodeIsIdentity : Prop := ∀ i : Instr, decodeWord (encode i) = .ok i

/-- Each word has at most one meaning, and the encoder is the decoder's inverse on it: the FAULT.opcode an instruction records is
the word that was fetched. -/
def Obligations.EncodeOfDecodeIsTheWord : Prop := ∀ (w : Word) (i : Instr), decodeWord w = .ok i → encode i = w

/-- Decode matches the word against the 35 patterns, the patterns do not overlap, and a word that matches none is unrecognized:
the spec's own enumeration, "checked by enumeration of all 65536 words" (30_encoding.md section 3, R105). -/
def Obligations.DecodeMatchesExactlyOneRow : Prop :=
  opTable.length = 35 ∧
  (∀ (w : Word) (i : Instr), decodeWord w = .ok i → i.row ∈ opTable ∧ i.row.accepts w = true) ∧
  (∀ (w : Word) (r : OpRow), r ∈ opTable → r.accepts w = true → ∃ i, decodeWord w = .ok i ∧ i.row = r) ∧
  (∀ (w : Word) (r r' : OpRow), r ∈ opTable → r' ∈ opTable → r.accepts w = true → r'.accepts w = true → r = r') ∧
  (∀ w : Word, (∀ r ∈ opTable, r.accepts w = false) → ∃ e, decodeWord w = .error e)

/-- The unrecognized encodings, in full, by the nibbles d1, d3 d4 and d4 of the word: the spec's own list, "the complement of rule
R107" (30_encoding.md section 4, R109). -/
def Obligations.UnrecognizedWordsAreTheListedOnes : Prop :=
  ∀ w : Word, (∃ e, decodeWord w = .error e) ↔
    (w.toNat / 4096 = 0 ∧ w.toNat ≠ 0x0000 ∧ w.toNat ≠ 0x00E0 ∧ w.toNat ≠ 0x00EE) ∨
    (w.toNat / 4096 = 5 ∧ w.toNat % 16 ≠ 0) ∨
    (w.toNat / 4096 = 8 ∧ w.toNat % 16 ∈ [0x8, 0x9, 0xA, 0xB, 0xC, 0xD, 0xF]) ∨
    (w.toNat / 4096 = 9 ∧ w.toNat % 16 ≠ 0) ∨
    (w.toNat / 4096 = 0xE ∧ w.toNat % 256 ∉ [0x9E, 0xA1]) ∨
    (w.toNat / 4096 = 0xF ∧ w.toNat % 256 ∉ [0x07, 0x0A, 0x15, 0x18, 0x1E, 0x29, 0x33, 0x55, 0x65])

/-- How many words of each leading nibble decode, and in all: the spec's own count, "by enumerating all 65536 words"
(30_encoding.md section 3, R108). -/
def Obligations.RecognizedWordCounts : Prop :=
  let legal : List Nat := [3, 4096, 4096, 4096, 4096, 256, 4096, 4096, 2304, 256, 4096, 4096, 4096, 4096, 32, 144]
  (∀ d : Fin 16, ((List.range 4096).filter fun a => recognized (BitVec.ofNat 16 (d.val * 4096 + a))).length = legal.getD d.val 0) ∧
  legal.sum = 43955 ∧ 65536 - legal.sum = 21581

/-- 30_encoding.md R104: the bits w[7:4] of 8x_6 and 8x_E select nothing. -/
def Obligations.ShiftsIgnoreTheMiddleNibble : Prop :=
  ∀ (x z z' : Nibble) (s : State),
    decodeWord (0x8#4 ++ x ++ z ++ 0x6#4) = .ok (.shr x z) ∧ exec (.shr x z) s = exec (.shr x z') s ∧
    decodeWord (0x8#4 ++ x ++ z ++ 0xE#4) = .ok (.shl x z) ∧ exec (.shl x z) s = exec (.shl x z') s

/-! ## The step, fetch and faults -/

/-- When the two bytes at PC decode to an instruction, a step of a running machine is that instruction's meaning, and nothing
else (40_datapath.md section 2). The meaning itself moves PC. -/
def Obligations.StepRunsTheDecodedInstruction : Prop :=
  ∀ (s : State) (i : Instr), s.running → s.pc.toNat + 1 < 4096 →
    decodeWord (s.mem.read s.pc.toNat ++ s.mem.read (s.pc.toNat + 1)) = .ok i → step s = exec i s

/-- 40_datapath.md R147: fetch reads two bytes, high byte first, or faults when the second lies beyond memory. -/
def Obligations.FetchIsBigEndianAndBounded : Prop :=
  ∀ s : State,
    (s.pc.toNat + 1 < 4096 → ∃ w, s.fetchWord = some w ∧
      w.toNat = (s.mem.read s.pc.toNat).toNat * 256 + (s.mem.read (s.pc.toNat + 1)).toNat) ∧
    (s.running → 4096 ≤ s.pc.toNat + 1 →
      step s = .next { s with fault := ⟨true, .fetchOob, s.pc, 0, s.pc.toNat⟩ })

/-- 30_encoding.md R112: an unrecognized opcode faults, records the word and changes nothing else. -/
def Obligations.UnrecognizedOpcodeFaults : Prop :=
  ∀ (s : State) (w : Word) (e : DecodeError), s.running → s.fetchWord = some w → decodeWord w = .error e →
    step s = .next { s with fault := ⟨true, .illegalOpcode, s.pc, w, 0⟩ }

/-- A step never stops the model: it answers a next state in every state (40_datapath.md section 7). -/
def Obligations.StepAlwaysAnswersANextState : Prop := ∀ s : State, ∃ t, step s = .next t

/-- Which instruction raises which execute-stage cause, and that the others raise none, with the condition, FAULT.opcode and
FAULT.info of the cause (60_exceptions.md section 1, R401; that no instruction has two causes is the spec's own derivation, R402). -/
def Obligations.ExecuteFaultsAreTheListedOnes : Prop :=
  ∀ (i : Instr) (s t : State), s.running → exec i s = .next t →
    (t.halted ↔ (execFault i s).isSome = true) ∧
    (∀ c info, execFault i s = some (c, info) → t = { s with fault := ⟨true, c, s.pc, encode i, info⟩ })

/-- Faults are precise: whatever transaction faults, the state after is the state before plus FAULT (60_exceptions.md section 1). -/
def Obligations.FaultsArePrecise : Prop :=
  ∀ (tr : Transaction) (s t : State), s.running → transact tr s = .next t → t.halted →
    t = { s with fault := t.fault } ∧ t.fault.pc = s.pc ∧ t.fault.cause ≠ .none

/-- The order of the checks in one step: fetch, then decode, then the instruction's own cause (60_exceptions.md section 1). -/
def Obligations.StepFaultPriority : Prop :=
  ∀ s t : State, s.running → step s = .next t →
    (4096 ≤ s.pc.toNat + 1 → t.fault.cause = .fetchOob) ∧
    (∀ w e, s.fetchWord = some w → decodeWord w = .error e → t.fault.cause = .illegalOpcode) ∧
    (∀ w i, s.fetchWord = some w → decodeWord w = .ok i →
      (t.halted ↔ (execFault i s).isSome = true) ∧ ∀ c info, execFault i s = some (c, info) → t.fault.cause = c)

/-- 40_datapath.md R174: while halted, STEP, TICK, SET_KEY and LOAD change nothing, the two reads answer, RESET restarts. -/
def Obligations.HaltedMachineStandsStill : Prop :=
  ∀ s : State, s.halted →
    transact .step s = .next s ∧ transact .tick s = .next s ∧ (∀ k p, transact (.setKey k p) s = .next s) ∧
    (∀ bytes, transact (.load bytes) s = .next s) ∧
    (transact .readDisplay s = .next s ∧ reply .readDisplay s = .display s.disp) ∧
    (transact .readFault s = .next s ∧ reply .readFault s = .fault s.fault) ∧
    ∃ t, transact .reset s = .next t ∧ AtResetValues t

/-- The first fault is kept: no schedule without RESET leaves the halted state or changes it (60_exceptions.md section 1). -/
def Obligations.OnlyResetLeavesTheHaltedState : Prop :=
  ∀ (ts : List Transaction) (s : State), s.halted → Transaction.reset ∉ ts → transactAll ts s = .next s

/-- A halted machine runs on as itself for any number of steps (40_datapath.md section 7). -/
def Obligations.HaltedRunIsAFixedPoint : Prop :=
  ∀ (n : Nat) (s : State), s.halted → Host.Core.run Sys2Proof.core n s = .next s

/-! ## Control flow -/

/-- 41_control_flow.md R200. -/
def Obligations.NopOnlyAdvances : Prop :=
  decodeWord 0x0000 = .ok .nop ∧ (∀ s : State, exec .nop s = .next { s with pc := s.pc + 2 }) ∧
  (∀ s : State, s.running → s.pc.toNat ≤ 0xFFE → s.mem.read s.pc.toNat = 0 → s.mem.read (s.pc.toNat + 1) = 0 →
    step s = .next { s with pc := s.pc + 2 }) ∧
  (∀ s : State, s.running → s.pc = 0x1000 → step s = .next { s with fault := ⟨true, .fetchOob, 0x1000, 0, 0x1000⟩ })

/-- 41_control_flow.md R201. -/
def Obligations.RetPopsIntoPc : Prop :=
  decodeWord 0x00EE = .ok .ret ∧ ∀ s : State,
    (s.sp.val = 0 → exec .ret s = .next { s with fault := ⟨true, .stackUnderflow, s.pc, 0x00EE, 0⟩ }) ∧
    (s.sp.val ≠ 0 → ∃ t, exec .ret s = .next t ∧ t = { s with sp := t.sp, pc := t.pc } ∧
      t.sp.val + 1 = s.sp.val ∧ s.stack[t.sp.val]? = some t.pc)

/-- 41_control_flow.md R202. -/
def Obligations.JumpGoesToTheAddress : Prop :=
  ∀ nnn : Addr12, decodeWord (0x1#4 ++ nnn) = .ok (.jp nnn) ∧
    ∀ s : State, ∃ t, exec (.jp nnn) s = .next t ∧ t = { s with pc := t.pc } ∧ t.pc.toNat = nnn.toNat

/-- 41_control_flow.md R203. -/
def Obligations.CallPushesTheNextAddress : Prop :=
  ∀ nnn : Addr12, decodeWord (0x2#4 ++ nnn) = .ok (.call nnn) ∧ ∀ s : State,
    (s.sp.val = 16 → exec (.call nnn) s = .next { s with fault := ⟨true, .stackOverflow, s.pc, 0x2#4 ++ nnn, 0⟩ }) ∧
    (s.sp.val < 16 → ∃ t, exec (.call nnn) s = .next t ∧ t = { s with stack := t.stack, sp := t.sp, pc := t.pc } ∧
      t.sp.val = s.sp.val + 1 ∧ t.pc.toNat = nnn.toNat ∧
      ∀ k : Fin 16, t.stack[k] = if k.val = s.sp.val then s.pc + 2 else s.stack[k])

/-- A return with the stack a call left goes to the word after the call, whatever ran in between
(95_test_vectors.md section 1, S9). -/
def Obligations.ReturnGoesBackToTheCall : Prop :=
  ∀ (nnn : Addr12) (s t u : State), s.sp.val < 16 → exec (.call nnn) s = .next t → u.stack = t.stack → u.sp = t.sp →
    exec .ret u = .next { u with sp := s.sp, pc := s.pc + 2 }

/-- 41_control_flow.md R205, R206, R207: the condition of each skip. -/
def Obligations.SkipsCompareRegisters : Prop :=
  (∀ (x : Nibble) (nn : Byte), decodeWord (0x3#4 ++ x ++ nn) = .ok (.seImm x nn) ∧
    ∀ s : State, exec (.seImm x nn) s = .next { s with pc := if s.reg x = nn then s.pc + 4 else s.pc + 2 }) ∧
  (∀ (x : Nibble) (nn : Byte), decodeWord (0x4#4 ++ x ++ nn) = .ok (.sneImm x nn) ∧
    ∀ s : State, exec (.sneImm x nn) s = .next { s with pc := if s.reg x ≠ nn then s.pc + 4 else s.pc + 2 }) ∧
  (∀ x y : Nibble, decodeWord (0x5#4 ++ x ++ y ++ 0x0#4) = .ok (.seReg x y) ∧
    ∀ s : State, exec (.seReg x y) s = .next { s with pc := if s.reg x = s.reg y then s.pc + 4 else s.pc + 2 })

/-- 41_control_flow.md R208: 9xy0 skips on equality, as 5xy0 does, under the parameter SKIP9_ON_EQUAL = true the rule gives this
hardware (log entry 5). -/
def Obligations.NineSkipsOnEquality : Prop :=
  ∀ x y : Nibble, decodeWord (0x9#4 ++ x ++ y ++ 0x0#4) = .ok (.se9Reg x y) ∧
    ∀ s : State, exec (.se9Reg x y) s = .next { s with pc := if s.reg x = s.reg y then s.pc + 4 else s.pc + 2 } ∧
      exec (.se9Reg x y) s = exec (.seReg x y) s

/-- 41_control_flow.md R209: the offset is V0, and the sum does not wrap. -/
def Obligations.JumpV0AddsV0 : Prop :=
  ∀ nnn : Addr12, decodeWord (0xB#4 ++ nnn) = .ok (.jpV0 nnn) ∧
    ∀ s : State, ∃ t, exec (.jpV0 nnn) s = .next t ∧ t = { s with pc := t.pc } ∧ t.pc.toNat = nnn.toNat + (s.reg 0).toNat

/-! ## Registers and ALU -/

/-- 42_alu.md R230, R231, R232: one register is written, no flag is. -/
def Obligations.LoadsAndImmediateAdd : Prop :=
  (∀ (x : Nibble) (nn : Byte), decodeWord (0x6#4 ++ x ++ nn) = .ok (.ldImm x nn) ∧
    ∀ s : State, ∃ t, exec (.ldImm x nn) s = .next t ∧ t = { s with v := t.v, pc := s.pc + 2 } ∧
      ∀ r, t.reg r = if r = x then nn else s.reg r) ∧
  (∀ (x : Nibble) (nn : Byte), decodeWord (0x7#4 ++ x ++ nn) = .ok (.addImm x nn) ∧
    ∀ s : State, ∃ t, exec (.addImm x nn) s = .next t ∧ t = { s with v := t.v, pc := s.pc + 2 } ∧
      (t.reg x).toNat = ((s.reg x).toNat + nn.toNat) % 256 ∧ ∀ r, r ≠ x → t.reg r = s.reg r) ∧
  (∀ x y : Nibble, decodeWord (0x8#4 ++ x ++ y ++ 0x0#4) = .ok (.ldReg x y) ∧
    ∀ s : State, ∃ t, exec (.ldReg x y) s = .next t ∧ t = { s with v := t.v, pc := s.pc + 2 } ∧
      ∀ r, t.reg r = if r = x then s.reg y else s.reg r)

/-- 42_alu.md R233, R234, R235: bit by bit, and VF unchanged unless it is the destination. -/
def Obligations.BitwiseOperations : Prop :=
  (∀ x y : Nibble, decodeWord (0x8#4 ++ x ++ y ++ 0x1#4) = .ok (.or x y) ∧
    ∀ s : State, ∃ t, exec (.or x y) s = .next t ∧ t = { s with v := t.v, pc := s.pc + 2 } ∧
      (∀ k, (t.reg x).getLsbD k = ((s.reg x).getLsbD k || (s.reg y).getLsbD k)) ∧ ∀ r, r ≠ x → t.reg r = s.reg r) ∧
  (∀ x y : Nibble, decodeWord (0x8#4 ++ x ++ y ++ 0x2#4) = .ok (.and x y) ∧
    ∀ s : State, ∃ t, exec (.and x y) s = .next t ∧ t = { s with v := t.v, pc := s.pc + 2 } ∧
      (∀ k, (t.reg x).getLsbD k = ((s.reg x).getLsbD k && (s.reg y).getLsbD k)) ∧ ∀ r, r ≠ x → t.reg r = s.reg r) ∧
  (∀ x y : Nibble, decodeWord (0x8#4 ++ x ++ y ++ 0x3#4) = .ok (.xor x y) ∧
    ∀ s : State, ∃ t, exec (.xor x y) s = .next t ∧ t = { s with v := t.v, pc := s.pc + 2 } ∧
      (∀ k, (t.reg x).getLsbD k = ((s.reg x).getLsbD k ^^ (s.reg y).getLsbD k)) ∧ ∀ r, r ≠ x → t.reg r = s.reg r)

/-- 42_alu.md R236. -/
def Obligations.AddGivesSumAndCarry : Prop :=
  ∀ x y : Nibble, decodeWord (0x8#4 ++ x ++ y ++ 0x4#4) = .ok (.addReg x y) ∧
    ∀ s : State, ∃ t, exec (.addReg x y) s = .next t ∧ t = { s with v := t.v, pc := s.pc + 2 } ∧
      t.reg 0xF = (if (s.reg x).toNat + (s.reg y).toNat ≥ 256 then 1 else 0) ∧
      (x ≠ 0xF → (t.reg x).toNat = ((s.reg x).toNat + (s.reg y).toNat) % 256) ∧
      ∀ r, r ≠ x → r ≠ 0xF → t.reg r = s.reg r

/-- 42_alu.md R237, R239: the difference mod 256, and VF = 0 exactly when it borrows. -/
def Obligations.SubtractGivesDifferenceAndNotBorrow : Prop :=
  (∀ x y : Nibble, decodeWord (0x8#4 ++ x ++ y ++ 0x5#4) = .ok (.sub x y) ∧
    ∀ s : State, ∃ t, exec (.sub x y) s = .next t ∧ t = { s with v := t.v, pc := s.pc + 2 } ∧
      t.reg 0xF = (if (s.reg x).toNat < (s.reg y).toNat then 0 else 1) ∧
      (x ≠ 0xF → ((t.reg x).toNat : Int) = ((s.reg x).toNat - (s.reg y).toNat : Int) % 256) ∧
      ∀ r, r ≠ x → r ≠ 0xF → t.reg r = s.reg r) ∧
  (∀ x y : Nibble, decodeWord (0x8#4 ++ x ++ y ++ 0x7#4) = .ok (.subn x y) ∧
    ∀ s : State, ∃ t, exec (.subn x y) s = .next t ∧ t = { s with v := t.v, pc := s.pc + 2 } ∧
      t.reg 0xF = (if (s.reg y).toNat < (s.reg x).toNat then 0 else 1) ∧
      (x ≠ 0xF → ((t.reg x).toNat : Int) = ((s.reg y).toNat - (s.reg x).toNat : Int) % 256) ∧
      ∀ r, r ≠ x → r ≠ 0xF → t.reg r = s.reg r)

/-- 42_alu.md R238, R240: Vx is shifted by one, the ignored nibble plays no part, VF is the bit shifted out. -/
def Obligations.ShiftsGiveTheBitShiftedOut : Prop :=
  (∀ x z : Nibble, decodeWord (0x8#4 ++ x ++ z ++ 0x6#4) = .ok (.shr x z) ∧
    ∀ s : State, ∃ t, exec (.shr x z) s = .next t ∧ t = { s with v := t.v, pc := s.pc + 2 } ∧
      (t.reg 0xF).toNat = (s.reg x).toNat % 2 ∧ (x ≠ 0xF → (t.reg x).toNat = (s.reg x).toNat / 2) ∧
      ∀ r, r ≠ x → r ≠ 0xF → t.reg r = s.reg r) ∧
  (∀ x z : Nibble, decodeWord (0x8#4 ++ x ++ z ++ 0xE#4) = .ok (.shl x z) ∧
    ∀ s : State, ∃ t, exec (.shl x z) s = .next t ∧ t = { s with v := t.v, pc := s.pc + 2 } ∧
      (t.reg 0xF).toNat = (s.reg x).toNat / 128 ∧ (x ≠ 0xF → (t.reg x).toNat = (s.reg x).toNat * 2 % 256) ∧
      ∀ r, r ≠ x → r ≠ 0xF → t.reg r = s.reg r)

/-! ## Index register and memory -/

/-- 43_index_memory.md R270, R271, R272. -/
def Obligations.IndexRegisterWrites : Prop :=
  (∀ nnn : Addr12, decodeWord (0xA#4 ++ nnn) = .ok (.ldI nnn) ∧
    ∀ s : State, ∃ t, exec (.ldI nnn) s = .next t ∧ t = { s with i := t.i, pc := s.pc + 2 } ∧ t.i.toNat = nnn.toNat) ∧
  (∀ x : Nibble, decodeWord (0xF#4 ++ x ++ 0x1E#8) = .ok (.addIVx x) ∧
    ∀ s : State, ∃ t, exec (.addIVx x) s = .next t ∧ t = { s with i := t.i, pc := s.pc + 2 } ∧
      t.i.toNat = (s.i.toNat + (s.reg x).toNat) % 65536) ∧
  (∀ x : Nibble, decodeWord (0xF#4 ++ x ++ 0x29#8) = .ok (.ldFVx x) ∧
    ∀ s : State, ∃ t, exec (.ldFVx x) s = .next t ∧ t = { s with i := t.i, pc := s.pc + 2 } ∧
      t.i.toNat = (s.reg x).toNat * 5)

/-- 43_index_memory.md R273. -/
def Obligations.BcdStoresThreeDigits : Prop :=
  ∀ x : Nibble, decodeWord (0xF#4 ++ x ++ 0x33#8) = .ok (.ldBVx x) ∧ ∀ s : State,
    (4096 ≤ s.i.toNat + 2 →
      exec (.ldBVx x) s = .next { s with fault := ⟨true, .memOob, s.pc, 0xF#4 ++ x ++ 0x33#8, max s.i.toNat 4096⟩ }) ∧
    (s.i.toNat + 2 < 4096 → s.mem.wf = true → ∃ t, exec (.ldBVx x) s = .next t ∧ t = { s with mem := t.mem, pc := s.pc + 2 } ∧
      (t.mem.read s.i.toNat).toNat = (s.reg x).toNat / 100 ∧
      (t.mem.read (s.i.toNat + 1)).toNat = (s.reg x).toNat / 10 % 10 ∧
      (t.mem.read (s.i.toNat + 2)).toNat = (s.reg x).toNat % 10 ∧
      ∀ a, (a < s.i.toNat ∨ s.i.toNat + 2 < a) → t.mem.read a = s.mem.read a)

/-- 43_index_memory.md R274. -/
def Obligations.StoreRegistersToMemory : Prop :=
  ∀ x : Nibble, decodeWord (0xF#4 ++ x ++ 0x55#8) = .ok (.ldMemVx x) ∧ ∀ s : State,
    (4096 ≤ s.i.toNat + x.toNat →
      exec (.ldMemVx x) s = .next { s with fault := ⟨true, .memOob, s.pc, 0xF#4 ++ x ++ 0x55#8, max s.i.toNat 4096⟩ }) ∧
    (s.i.toNat + x.toNat < 4096 → s.mem.wf = true → ∃ t, exec (.ldMemVx x) s = .next t ∧
      t = { s with mem := t.mem, pc := s.pc + 2 } ∧
      (∀ k : Nibble, k.toNat ≤ x.toNat → t.mem.read (s.i.toNat + k.toNat) = s.reg k) ∧
      ∀ a, (a < s.i.toNat ∨ s.i.toNat + x.toNat < a) → t.mem.read a = s.mem.read a)

/-- 43_index_memory.md R275. -/
def Obligations.LoadRegistersFromMemory : Prop :=
  ∀ x : Nibble, decodeWord (0xF#4 ++ x ++ 0x65#8) = .ok (.ldVxMem x) ∧ ∀ s : State,
    (4096 ≤ s.i.toNat + x.toNat →
      exec (.ldVxMem x) s = .next { s with fault := ⟨true, .memOob, s.pc, 0xF#4 ++ x ++ 0x65#8, max s.i.toNat 4096⟩ }) ∧
    (s.i.toNat + x.toNat < 4096 → ∃ t, exec (.ldVxMem x) s = .next t ∧ t = { s with v := t.v, pc := s.pc + 2 } ∧
      ∀ k : Nibble, t.reg k = if k.toNat ≤ x.toNat then s.mem.read (s.i.toNat + k.toNat) else s.reg k)

/-- A block load from where a block store put them gives back V0..Vx, whatever ran in between
(43_index_memory.md section 2). -/
def Obligations.LoadAfterStoreGivesBackTheRegisters : Prop :=
  ∀ (x : Nibble) (s t u : State), s.mem.wf = true → s.i.toNat + x.toNat < 4096 → exec (.ldMemVx x) s = .next t →
    u.mem = t.mem → u.i = s.i →
    ∃ w, exec (.ldVxMem x) u = .next w ∧ ∀ k : Nibble, w.reg k = if k.toNat ≤ x.toNat then s.reg k else u.reg k

/-- Code may modify itself: bytes a block store puts at the next instruction's address are what the next fetch reads
(20_memory.md section 9). -/
def Obligations.StoredBytesAreFetchedNext : Prop :=
  ∀ (x a b : Nibble) (s t : State), s.mem.wf = true → s.i.toNat + x.toNat < 4096 → exec (.ldMemVx x) s = .next t →
    b.toNat = a.toNat + 1 → b.toNat ≤ x.toNat → (s.pc + 2).toNat = s.i.toNat + a.toNat →
    t.fetchWord = some (s.reg a ++ s.reg b)

/-! ## Display and random -/

/-- 44_display_random.md R300. -/
def Obligations.ClearUnlightsEveryCell : Prop :=
  decodeWord 0x00E0 = .ok .cls ∧
    ∀ s : State, ∃ t, exec .cls s = .next t ∧ t = { s with disp := t.disp, pc := s.pc + 2 } ∧ ∀ k, Display.lit t.disp k = false

/-- 44_display_random.md R301, for every value of the free random byte. The counter `rndDraws` is the model's own (log entry 2). -/
def Obligations.RandomIsMaskedByTheImmediate : Prop :=
  ∀ (x : Nibble) (nn : Byte), decodeWord (0xC#4 ++ x ++ nn) = .ok (.rnd x nn) ∧ ∀ s : State,
    exec (.rnd x nn) s = execRndWith (Config.rnd s.rndDraws) x nn s ∧
    (∃ t, exec (.rnd x nn) s = .next t ∧ t = { s with v := t.v, pc := s.pc + 2, rndDraws := s.rndDraws + 1 } ∧
      (∀ k, nn.getLsbD k = false → (t.reg x).getLsbD k = false) ∧ ∀ k, k ≠ x → t.reg k = s.reg k) ∧
    ∀ r : Byte, ∃ t, execRndWith r x nn s = .next t ∧
      t = { s with v := t.v, pc := s.pc + 2, rndDraws := s.rndDraws + 1 } ∧
      (∀ k, (t.reg x).getLsbD k = (r.getLsbD k && nn.getLsbD k)) ∧ ∀ k, k ≠ x → t.reg k = s.reg k

/-- 44_display_random.md R302. The column order of a sprite byte is the parameter SPRITE_MSB_FIRST at its default, the spec's own
decision (R303, log entry 4). -/
def Obligations.DrawTogglesTheSpriteCells : Prop :=
  ∀ x y n : Nibble, decodeWord (0xD#4 ++ x ++ y ++ n) = .ok (.drw x y n) ∧ ∀ s : State,
    (n ≠ 0 → 4096 ≤ s.i.toNat + n.toNat - 1 →
      exec (.drw x y n) s = .next { s with fault := ⟨true, .memOob, s.pc, 0xD#4 ++ x ++ y ++ n, max s.i.toNat 4096⟩ }) ∧
    ((n = 0 ∨ s.i.toNat + n.toNat - 1 < 4096) → ∃ t, exec (.drw x y n) s = .next t ∧
      t = { s with v := t.v, disp := t.disp, pc := s.pc + 2 } ∧
      (∀ k, Display.lit t.disp k ≠ Display.lit s.disp k ↔ SpriteTouches s x y n k) ∧
      ((∃ k, SpriteTouches s x y n k ∧ Display.lit s.disp k = true) → t.reg 0xF = 1) ∧
      ((∀ k, SpriteTouches s x y n k → Display.lit s.disp k = false) → t.reg 0xF = 0) ∧
      ∀ r, r ≠ 0xF → t.reg r = s.reg r)

/-- Two draws of the same sprite at the same place restore the display, and the second one's flag says whether some touched cell
was unlit before the first: the two laws the spec derives from its draw rule (44_display_random.md section 3, R304). `u` is any
state in which nothing the draw reads has changed; which cells light rests on log entry 4. -/
def Obligations.DrawingTwiceRestoresTheDisplay : Prop :=
  ∀ (x y n : Nibble) (s t u w : State), x ≠ 0xF → y ≠ 0xF → (n = 0 ∨ s.i.toNat + n.toNat - 1 < 4096) →
    exec (.drw x y n) s = .next t →
    u.disp = t.disp → u.i = s.i → u.reg x = s.reg x → u.reg y = s.reg y →
    (∀ row, row < n.toNat → u.mem.read (s.i.toNat + row) = s.mem.read (s.i.toNat + row)) →
    exec (.drw x y n) u = .next w →
    (∀ k, Display.lit t.disp k ≠ Display.lit s.disp k ↔ SpriteTouches s x y n k) ∧ w.disp = s.disp ∧
    (w.reg 0xF = 1 ↔ ∃ k, SpriteTouches s x y n k ∧ Display.lit t.disp k = true) ∧
    (w.reg 0xF = 1 ↔ ∃ k, SpriteTouches s x y n k ∧ Display.lit s.disp k = false) ∧
    ((∀ k, SpriteTouches s x y n k → Display.lit s.disp k = false) →
      ((∃ k, SpriteTouches s x y n k) → w.reg 0xF = 1) ∧ ((∀ k, ¬ SpriteTouches s x y n k) → w.reg 0xF = 0))

/-! ## Keys and timers -/

/-- 45_keys_timers.md R320, R321. -/
def Obligations.KeySkips : Prop :=
  ∀ x : Nibble, decodeWord (0xE#4 ++ x ++ 0x9E#8) = .ok (.skp x) ∧ decodeWord (0xE#4 ++ x ++ 0xA1#8) = .ok (.sknp x) ∧
    ∀ s : State,
      (16 ≤ (s.reg x).toNat →
        exec (.skp x) s = .next { s with fault := ⟨true, .keyRange, s.pc, 0xE#4 ++ x ++ 0x9E#8, (s.reg x).toNat⟩ } ∧
        exec (.sknp x) s = .next { s with fault := ⟨true, .keyRange, s.pc, 0xE#4 ++ x ++ 0xA1#8, (s.reg x).toNat⟩ }) ∧
      (∀ k : Fin 16, (s.reg x).toNat = k.val →
        exec (.skp x) s = .next { s with pc := if s.key[k] = true then s.pc + 4 else s.pc + 2 } ∧
        exec (.sknp x) s = .next { s with pc := if s.key[k] = false then s.pc + 4 else s.pc + 2 })

/-- 45_keys_timers.md R322, R324, R325. -/
def Obligations.TimerReadsAndWrites : Prop :=
  ∀ x : Nibble,
    (decodeWord (0xF#4 ++ x ++ 0x07#8) = .ok (.ldVxDt x) ∧
      ∀ s : State, ∃ t, exec (.ldVxDt x) s = .next t ∧ t = { s with v := t.v, pc := s.pc + 2 } ∧
        ∀ r, t.reg r = if r = x then s.dt else s.reg r) ∧
    (decodeWord (0xF#4 ++ x ++ 0x15#8) = .ok (.ldDtVx x) ∧
      ∀ s : State, exec (.ldDtVx x) s = .next { s with dt := s.reg x, pc := s.pc + 2 }) ∧
    (decodeWord (0xF#4 ++ x ++ 0x18#8) = .ok (.ldStVx x) ∧
      ∀ s : State, exec (.ldStVx x) s = .next { s with st := s.reg x, pc := s.pc + 2 })

/-- 45_keys_timers.md R323. -/
def Obligations.KeyWaitTakesTheLeastKeyOrRewinds : Prop :=
  ∀ x : Nibble, decodeWord (0xF#4 ++ x ++ 0x0A#8) = .ok (.ldVxK x) ∧ ∀ s : State,
    (∀ k : Fin 16, s.key[k] = true → (∀ j : Fin 16, j < k → s.key[j] = false) →
      ∃ t, exec (.ldVxK x) s = .next t ∧ t = { s with v := t.v, pc := s.pc + 2 } ∧ (t.reg x).toNat = k.val ∧
        ∀ r, r ≠ x → t.reg r = s.reg r) ∧
    ((∀ k : Fin 16, s.key[k] = false) → exec (.ldVxK x) s = .next s)

/-! ## Host transactions -/

/-- 10_state.md R51: the state a freshly constructed machine starts in. -/
def Obligations.ResetStateHasTheResetValues : Prop := AtResetValues State.reset

/-- 70_reset_and_hazards.md R450: RESET works from any state, also a halted one, and is idempotent. -/
def Obligations.ResetReinitialisesEverything : Prop :=
  ∀ s : State, ∃ t, transact .reset s = .next t ∧ AtResetValues t ∧ transact .reset t = .next t

/-- 20_memory.md R89. -/
def Obligations.LoadCopiesTheProgram : Prop :=
  ∀ (bytes : List Byte) (s : State),
    (s.halted → transact (.load bytes) s = .next s) ∧
    (s.running → 3584 < bytes.length →
      transact (.load bytes) s = .next { s with fault := ⟨true, .loadOob, s.pc, 0, bytes.length⟩ }) ∧
    (s.running → bytes.length ≤ 3584 → s.mem.wf = true → ∃ t, transact (.load bytes) s = .next t ∧ t = { s with mem := t.mem } ∧
      (∀ k (h : k < bytes.length), t.mem.read (0x200 + k) = bytes[k]) ∧
      ∀ a, (a < 0x200 ∨ 0x200 + bytes.length ≤ a) → t.mem.read a = s.mem.read a)

/-- 60_exceptions.md R420. -/
def Obligations.TickCountsBothTimersDown : Prop :=
  ∀ s : State, (s.halted → transact .tick s = .next s) ∧
    (s.running → ∃ t, transact .tick s = .next t ∧ t = { s with dt := t.dt, st := t.st } ∧
      t.dt.toNat = s.dt.toNat - 1 ∧ t.st.toNat = s.st.toNat - 1)

/-- SET_KEY of a running machine sets one key and changes nothing else (40_datapath.md section 1). -/
def Obligations.SetKeySetsOneKey : Prop :=
  ∀ (k : Nibble) (p : Bool) (s : State), s.running → ∃ t, transact (.setKey k p) s = .next t ∧ t = { s with key := t.key } ∧
    ∀ j : Fin 16, t.key[j] = if j.val = k.toNat then p else s.key[j]

/-- The two reads answer and change no state; READ_DISPLAY's bit col of row row is cell row*64 + col (40_datapath.md section 1). -/
def Obligations.ReadsAnswerAndChangeNothing : Prop :=
  ∀ s : State, transact .readDisplay s = .next s ∧ transact .readFault s = .next s ∧ reply .readFault s = .fault s.fault ∧
    ∃ d, reply .readDisplay s = .display d ∧
      ∀ (row : Fin 32) (col : Nat), col < 64 → d[row].getLsbD col = Display.lit s.disp (row.val * 64 + col)

/-! ## Invariants and rules of the whole machine -/

/-- The machine's invariant holds at reset. -/
def Obligations.InvariantHoldsAtReset : Prop := StateInv State.reset

/-- Every step keeps the invariant: memory canonical, PC at most 0x10FE, return addresses at most 0x1000, FAULT coherent. -/
def Obligations.StepKeepsTheInvariant : Prop := ∀ s t : State, StateInv s → step s = .next t → StateInv t

/-- Every schedule of host transactions, in any order, keeps the invariant. -/
def Obligations.SchedulesKeepTheInvariant : Prop :=
  ∀ (ts : List Transaction) (s t : State), StateInv s → transactAll ts s = .next t → StateInv t

/-- An instruction writes nothing but its listed destinations, PC and, when it faults, FAULT; no instruction writes KEY
(40_datapath.md section 6). -/
def Obligations.InstructionsWriteOnlyTheirDestinations : Prop :=
  ∀ (i : Instr) (s t : State), s.mem.wf = true → exec i s = .next t →
    (∀ l : Loc, writes i s l = false → agreesAt s t l) ∧ t.key = s.key ∧
    (t.fault = s.fault ∨ t = { s with fault := t.fault })

/-- Only Ex9E, ExA1 and Fx0A depend on the keys; no instruction writes them (10_state.md section 7). -/
def Obligations.OnlyKeyInstructionsReadKeys : Prop :=
  ∀ (i : Instr) (s t : State) (ks : Vector Bool 16), (∀ x, i ≠ .skp x) → (∀ x, i ≠ .sknp x) → (∀ x, i ≠ .ldVxK x) →
    exec i s = .next t → exec i { s with key := ks } = .next { t with key := ks }

/-- Only Fx07 reads DT and no instruction reads ST (10_state.md section 6). -/
def Obligations.TimersAreReadOnlyByFx07 : Prop :=
  ∀ (i : Instr) (s t : State) (b : Byte), exec i s = .next t →
    ((∀ x, i ≠ .ldVxDt x) → (∀ x, i ≠ .ldDtVx x) → exec i { s with dt := b } = .next { t with dt := b }) ∧
    ((∀ x, i ≠ .ldStVx x) → exec i { s with st := b } = .next { t with st := b }) ∧
    ((∃ x, i = .ldDtVx x) → exec i { s with dt := b } = .next t) ∧
    ((∃ x, i = .ldStVx x) → exec i { s with st := b } = .next t)

/-- Only Cxnn depends on the random byte: every other instruction ignores how many have been drawn (40_datapath.md section 1; the
counter is the model's own, log entry 2). -/
def Obligations.OnlyRndReadsTheRandomByte : Prop :=
  ∀ (i : Instr) (s t : State) (n : Nat), (∀ x nn, i ≠ .rnd x nn) →
    exec i s = .next t → exec i { s with rndDraws := n } = .next { t with rndDraws := n }
end

