-- ==== Sys2Proof/Laws/Memory.lean ====
section
/-! SUPPORT. The laws of memory: reads after writes, and that every operation keeps the canonical form. -/

namespace Sys2Proof.Machine

theorem wfFrom_cons_iff {lo a : Nat} {v : Byte} {m : Memory} :
    Memory.wfFrom lo ((a, v) :: m) = true ↔
      lo ≤ a ∧ a < 4096 ∧ v ≠ resetByte a ∧ Memory.wfFrom (a + 1) m = true := by
  simp [Memory.wfFrom, and_assoc]

theorem wfFrom_mono {lo lo' : Nat} {m : Memory} (h : Memory.wfFrom lo m = true) (hl : lo' ≤ lo) :
    Memory.wfFrom lo' m = true := by
  cases m with
  | nil => rfl
  | cons c m =>
    obtain ⟨a, v⟩ := c
    rw [wfFrom_cons_iff] at h ⊢
    exact ⟨by omega, h.2⟩

/-- An address below every listed one reads as reset left it. -/
theorem read_below {lo a : Nat} {m : Memory} (h : Memory.wfFrom lo m = true) (ha : a < lo) :
    m.read a = resetByte a := by
  induction m generalizing lo with
  | nil => rfl
  | cons c m ih =>
    obtain ⟨b, v⟩ := c
    rw [wfFrom_cons_iff] at h
    have hab : a ≠ b := by omega
    simp only [Memory.read, hab, if_false]
    exact ih h.2.2.2 (by omega)

/-- A read after a write to the same address gives the byte written, and any other address reads as before. -/
theorem read_write {lo : Nat} {m : Memory} (h : Memory.wfFrom lo m = true) (a : Nat) (v : Byte) (b : Nat) :
    (m.write a v).read b = if b = a then v else m.read b := by
  induction m generalizing lo with
  | nil => by_cases hv : v = resetByte a <;> by_cases hb : b = a <;> simp [Memory.write, Memory.read, hv, hb]
  | cons c m ih =>
    obtain ⟨c, w⟩ := c
    rw [wfFrom_cons_iff] at h
    obtain ⟨-, -, -, hm⟩ := h
    have hlow : ∀ d, d ≤ c → Memory.read m d = resetByte d := fun d hd => read_below hm (by omega)
    simp only [Memory.write]
    split
    · rename_i hac
      split
      · rename_i hv
        by_cases hb : b = a
        · subst hb; have hbc : b ≠ c := by omega
          simp [Memory.read, hbc, hlow b (by omega), hv]
        · simp [hb]
      · by_cases hb : b = a <;> simp [Memory.read, hb]
    · split
      · rename_i hac
        subst hac
        split
        · rename_i hv
          by_cases hb : b = a
          · subst hb; simp [hlow b (le_refl b), hv]
          · simp [Memory.read, hb]
        · by_cases hb : b = a <;> simp [Memory.read, hb]
      · rename_i hac hne
        by_cases hb : b = c
        · subst hb
          have hba : b ≠ a := fun h => hne h.symm
          simp [Memory.read, hba]
        · simp only [Memory.read, hb, if_false]
          exact ih hm

/-- A write to an existing address keeps the canonical form. -/
theorem write_wfFrom {lo : Nat} {m : Memory} (h : Memory.wfFrom lo m = true) {a : Nat} (hlo : lo ≤ a) (ha : a < 4096)
    (v : Byte) : Memory.wfFrom lo (m.write a v) = true := by
  induction m generalizing lo with
  | nil =>
    simp only [Memory.write]
    split
    · rfl
    · rename_i hv; exact wfFrom_cons_iff.2 ⟨hlo, ha, hv, rfl⟩
  | cons c m ih =>
    obtain ⟨c, w⟩ := c
    have h0 := h
    rw [wfFrom_cons_iff] at h
    obtain ⟨h1, h2, h3, hm⟩ := h
    simp only [Memory.write]
    split
    · split
      · exact h0
      · rename_i hac hv
        exact wfFrom_cons_iff.2 ⟨hlo, ha, hv, wfFrom_cons_iff.2 ⟨by omega, h2, h3, hm⟩⟩
    · split
      · rename_i hac
        subst hac
        split
        · exact wfFrom_mono hm (by omega)
        · rename_i hv; exact wfFrom_cons_iff.2 ⟨hlo, ha, hv, hm⟩
      · exact wfFrom_cons_iff.2 ⟨h1, h2, h3, ih hm (by omega)⟩

theorem write_wf {m : Memory} (h : m.wf = true) {a : Nat} (ha : a < 4096) (v : Byte) : (m.write a v).wf = true :=
  write_wfFrom h (Nat.zero_le a) ha v

theorem writeList_wf {m : Memory} (h : m.wf = true) (bs : List Byte) {a : Nat} (ha : a + bs.length ≤ 4096) :
    (m.writeList a bs).wf = true := by
  induction bs generalizing m a with
  | nil => exact h
  | cons b bs ih =>
    simp only [List.length_cons] at ha
    exact ih (write_wf h (by omega) b) (by omega)

/-- After writing a block, its addresses read as its bytes and every other address reads as before. -/
theorem read_writeList {m : Memory} (h : m.wf = true) (bs : List Byte) {a : Nat} (ha : a + bs.length ≤ 4096) (b : Nat) :
    (m.writeList a bs).read b = if a ≤ b ∧ b < a + bs.length then bs.getD (b - a) 0 else m.read b := by
  induction bs generalizing m a with
  | nil => simp [Memory.writeList]
  | cons v bs ih =>
    simp only [List.length_cons] at ha
    simp only [Memory.writeList, List.length_cons]
    rw [ih (write_wf h (by omega) v) (by omega), read_write h]
    by_cases h1 : b = a
    · subst h1; simp
    · by_cases h2 : a + 1 ≤ b ∧ b < a + 1 + bs.length
      · have h3 : a ≤ b ∧ b < a + (bs.length + 1) := by omega
        have h4 : b - a = (b - (a + 1)) + 1 := by omega
        rw [if_pos h2, if_pos h3, h4]; simp
      · have h3 : ¬ (a ≤ b ∧ b < a + (bs.length + 1)) := by omega
        rw [if_neg h2, if_neg h3, if_neg h1]

@[simp] theorem readList_length (m : Memory) (a n : Nat) : (m.readList a n).length = n := by
  induction n generalizing a with
  | zero => rfl
  | succ n ih => simp [Memory.readList, ih]

theorem readList_getD (m : Memory) (a n k : Nat) (hk : k < n) : (m.readList a n).getD k 0 = m.read (a + k) := by
  induction n generalizing a k with
  | zero => omega
  | succ n ih =>
    cases k with
    | zero => simp [Memory.readList]
    | succ k =>
      simp only [Memory.readList, List.getD_cons_succ]
      rw [ih (a + 1) k (by omega)]; congr 1; omega

/-- Memories in canonical form that read alike are the same list. -/
theorem wfFrom_ext {lo : Nat} {m m' : Memory} (h : Memory.wfFrom lo m = true) (h' : Memory.wfFrom lo m' = true)
    (hr : ∀ a, m.read a = m'.read a) : m = m' := by
  induction m generalizing lo m' with
  | nil =>
    cases m' with
    | nil => rfl
    | cons c m' =>
      obtain ⟨b, w⟩ := c
      rw [wfFrom_cons_iff] at h'
      have := hr b
      simp only [Memory.read, if_true] at this
      exact absurd this.symm h'.2.2.1
  | cons c m ih =>
    obtain ⟨a, v⟩ := c
    have h0 := h
    rw [wfFrom_cons_iff] at h
    cases m' with
    | nil =>
      have := hr a
      simp only [Memory.read, if_true] at this
      exact absurd this h.2.2.1
    | cons c m' =>
      obtain ⟨b, w⟩ := c
      have h0' := h'
      rw [wfFrom_cons_iff] at h'
      have hab : a = b := by
        rcases Nat.lt_trichotomy a b with hlt | heq | hgt
        · have e := hr a
          have hne : a ≠ b := by omega
          simp only [Memory.read, if_true, hne, if_false] at e
          rw [read_below h'.2.2.2 (by omega)] at e
          exact absurd e h.2.2.1
        · exact heq
        · have e := hr b
          have hne : b ≠ a := by omega
          simp only [Memory.read, if_true, hne, if_false] at e
          rw [read_below h.2.2.2 (by omega)] at e
          exact absurd e.symm h'.2.2.1
      subst hab
      have hvw : v = w := by have e := hr a; simpa [Memory.read] using e
      subst hvw
      congr 1
      refine ih h.2.2.2 h'.2.2.2 fun d => ?_
      by_cases hd : d = a
      · subst hd
        rw [read_below h.2.2.2 (by omega), read_below h'.2.2.2 (by omega)]
      · have e := hr d
        simpa [Memory.read, hd] using e

theorem wf_ext {m m' : Memory} (h : m.wf = true) (h' : m'.wf = true) (hr : ∀ a, m.read a = m'.read a) : m = m' :=
  wfFrom_ext h h' hr

/-- The reset state's memory has the canonical form. -/
theorem reset_mem_wf : State.reset.mem.wf = true := rfl

end Sys2Proof.Machine
end

