-- ==== Sys2Proof/Laws/Ops.lean ====
section
/-! SUPPORT. One specification lemma per shared operation: everything it can do. -/

namespace Sys2Proof.Machine

/-! ## Registers -/

/-- Reading after writing one register; every other field is as before (`writeReg_frame`). -/
theorem writeReg_reg (s : State) (x r : Nibble) (b : Byte) :
    (s.writeReg x b).reg r = if r = x then b else s.reg r := by
  have hx : x.toNat < 16 := x.isLt
  have hr : r.toNat < 16 := r.isLt
  simp only [State.reg, State.writeReg, State.setRegs_v, Vector.getElem_set]
  by_cases h : r = x
  · subst h; simp
  · have h2 : x.toNat ≠ r.toNat := fun e => h (BitVec.eq_of_toNat_eq e.symm)
    rw [if_neg h2, if_neg h]

theorem writeReg_frame (s : State) (x : Nibble) (b : Byte) :
    s.writeReg x b = { s with v := (s.writeReg x b).v } := rfl

/-- Two register files that read alike are the same. -/
theorem regs_ext {s t : State} (h : ∀ r : Nibble, s.reg r = t.reg r) : s.v = t.v := by
  apply Vector.ext
  intro k hk
  have e := h (BitVec.ofNat 4 k)
  simpa [State.reg, Nat.mod_eq_of_lt hk] using e

theorem loadRegs_getElem (v : Vector Byte 16) (bs : List Byte) (k r : Nat) (hr : r < 16) :
    (loadRegs v k bs)[r] = if k ≤ r ∧ r < k + bs.length then bs.getD (r - k) 0 else v[r] := by
  induction bs generalizing v k with
  | nil =>
    simp [loadRegs]
  | cons b bs ih =>
    simp only [loadRegs, List.length_cons]
    rw [ih]
    by_cases h2 : k + 1 ≤ r ∧ r < k + 1 + bs.length
    · have h3 : k ≤ r ∧ r < k + (bs.length + 1) := by omega
      have h4 : r - k = (r - (k + 1)) + 1 := by omega
      rw [if_pos h2, if_pos h3, h4]; simp
    · rw [if_neg h2, Vector.getElem_setIfInBounds]
      by_cases h1 : k = r
      · subst h1
        have h3 : k ≤ k ∧ k < k + (bs.length + 1) := by omega
        simp [h3]
      · have h3 : ¬ (k ≤ r ∧ r < k + (bs.length + 1)) := by omega
        rw [if_neg h1, if_neg h3]

theorem regBlock_length (s : State) (x : Nibble) : (s.regBlock x).length = x.toNat + 1 := by
  have hx : x.toNat < 16 := x.isLt
  simp [State.regBlock]; omega

theorem regBlock_getD (s : State) (x : Nibble) (k : Nat) (hk : k ≤ x.toNat) :
    (s.regBlock x).getD k 0 = s.reg (BitVec.ofNat 4 k) := by
  have hx : x.toNat < 16 := x.isLt
  have hk16 : k < 16 := by omega
  simp [State.regBlock, State.reg, List.getD, Nat.mod_eq_of_lt hk16, Nat.lt_succ_of_le hk, hk16]

/-! ## Memory accesses of an instruction -/

theorem inRange_iff (a n : Nat) : inRange a n = true ↔ n = 0 ∨ a + n ≤ 4096 := by simp [inRange]

/-- A block read either gives the `n` bytes, all of which exist, or fails because one does not. -/
theorem readBlock_cases (s : State) (n : Nat) :
    ((n = 0 ∨ s.i.toNat + n ≤ 4096) ∧ s.readBlock n = some (s.mem.readList s.i.toNat n)) ∨
    (n ≠ 0 ∧ 4096 < s.i.toNat + n ∧ s.readBlock n = none) := by
  by_cases h : n = 0 ∨ s.i.toNat + n ≤ 4096
  · exact .inl ⟨h, by simp [State.readBlock, (inRange_iff _ _).2 h]⟩
  · refine .inr ⟨fun e => h (.inl e), by omega, ?_⟩
    have : ¬ inRange s.i.toNat n = true := fun e => h ((inRange_iff _ _).1 e)
    simp [State.readBlock, this]

/-- A block write either writes every byte or nothing. -/
theorem writeBlock_cases (s : State) (bs : List Byte) :
    ((bs.length = 0 ∨ s.i.toNat + bs.length ≤ 4096) ∧
      s.writeBlock bs = some { s with mem := s.mem.writeList s.i.toNat bs }) ∨
    (bs.length ≠ 0 ∧ 4096 < s.i.toNat + bs.length ∧ s.writeBlock bs = none) := by
  by_cases h : bs.length = 0 ∨ s.i.toNat + bs.length ≤ 4096
  · exact .inl ⟨h, by simp [State.writeBlock, (inRange_iff _ _).2 h, State.setMem]⟩
  · refine .inr ⟨fun e => h (.inl e), by omega, ?_⟩
    have : ¬ inRange s.i.toNat bs.length = true := fun e => h ((inRange_iff _ _).1 e)
    simp [State.writeBlock, this]

/-! ## Return stack -/

theorem push_cases (s : State) (w : Word) :
    (∃ h : s.sp.val < 16, s.push w = some { s with stack := s.stack.set s.sp.val w h, sp := ⟨s.sp.val + 1, by omega⟩ }) ∨
    (s.sp.val = 16 ∧ s.push w = none) := by
  by_cases h : s.sp.val < 16
  · exact .inl ⟨h, by simp [State.push, h, State.setStack]⟩
  · exact .inr ⟨by omega, by simp [State.push, h]⟩

theorem pop_cases (s : State) :
    (s.sp.val ≠ 0 ∧ s.pop = some (s.stack[s.sp.val - 1]'(by omega), { s with sp := ⟨s.sp.val - 1, by omega⟩ })) ∨
    (s.sp.val = 0 ∧ s.pop = none) := by
  by_cases h : s.sp.val = 0
  · exact .inr ⟨h, by simp [State.pop, h]⟩
  · exact .inl ⟨h, by simp [State.pop, h, State.setStack]⟩

/-! ## Keys -/

theorem keyAt_cases (s : State) (k : Byte) :
    (∃ h : k.toNat < 16, s.keyAt k = some s.key[k.toNat]) ∨ (16 ≤ k.toNat ∧ s.keyAt k = none) := by
  by_cases h : k.toNat < 16
  · exact .inl ⟨h, by simp [State.keyAt, h]⟩
  · exact .inr ⟨by omega, by simp [State.keyAt, h]⟩

theorem firstTrue_some {ps : List Bool} {k m : Nat} (h : firstTrue k ps = some m) :
    k ≤ m ∧ ps[m - k]? = some true ∧ ∀ j, j < m - k → ps[j]? = some false := by
  induction ps generalizing k with
  | nil => simp [firstTrue] at h
  | cons p ps ih =>
    cases p with
    | true =>
      obtain rfl : k = m := by simpa [firstTrue] using h
      simp
    | false =>
      obtain ⟨h1, h2, h3⟩ := ih (k := k + 1) (by simpa [firstTrue] using h)
      have e : m - k = (m - (k + 1)) + 1 := by omega
      refine ⟨by omega, by rw [e]; simpa using h2, fun j hj => ?_⟩
      cases j with
      | zero => simp
      | succ j => simpa using h3 j (by omega)

theorem firstTrue_none {ps : List Bool} {k : Nat} : firstTrue k ps = none ↔ ∀ p ∈ ps, p = false := by
  induction ps generalizing k with
  | nil => simp [firstTrue]
  | cons p ps ih => cases p <;> simp [firstTrue, ih]

/-! ## Display -/

theorem toggle_lit (d : Display) (k j : Nat) (hk : k < 2048) :
    Display.lit (Display.toggle d k) j = (Display.lit d j ^^ decide (j = k)) := by
  have hk' : k / 64 < 32 := by omega
  simp only [Display.lit, Display.toggle, hk', dif_pos]
  by_cases hj : j / 64 < 32
  · simp only [hj, dif_pos, Vector.getElem_set]
    by_cases hr : k / 64 = j / 64
    · simp only [hr, if_true, BitVec.getLsbD_xor, BitVec.getLsbD_shiftLeft]
      congr 1
      have hjm : j % 64 < 64 := by omega
      by_cases h : j = k
      · subst h; simp [hjm]
      · by_cases hlt : j % 64 < k % 64
        · simp [h, hlt]
        · have : j % 64 - k % 64 ≠ 0 := by omega
          simp [h, hlt, hjm, BitVec.getLsbD_one, this]
    · have h : j ≠ k := fun e => hr (by rw [e])
      simp [hr, h]
  · have h : j ≠ k := by omega
    simp [hj, h]

/-- Two displays that show the same cells are the same. -/
theorem display_ext {d d' : Display} (h : ∀ k, Display.lit d k = Display.lit d' k) : d = d' := by
  apply Vector.ext
  intro r hr
  apply BitVec.eq_of_getLsbD_eq
  intro c hc
  have e := h (r * 64 + c)
  have h1 : (r * 64 + c) / 64 = r := by omega
  have h2 : (r * 64 + c) % 64 = c := by omega
  simpa [Display.lit, h1, h2, hr] using e

@[simp] theorem dark_lit (k : Nat) : Display.lit Display.dark k = false := by
  simp only [Display.lit, Display.dark]
  split <;> simp

theorem spriteCell_lt (cx cy : Byte) (row col : Nat) : spriteCell cx cy row col < 2048 := by
  simp only [spriteCell]; omega

/-! ## Fetch, faults, the multiplexer -/

theorem fetchWord_cases (s : State) :
    (s.pc.toNat + 1 < 4096 ∧
      s.fetchWord = some (wordOfBytes (s.mem.read s.pc.toNat) (s.mem.read (s.pc.toNat + 1)))) ∨
    (4096 ≤ s.pc.toNat + 1 ∧ s.fetchWord = none) := by
  by_cases h : 4096 ≤ s.pc.toNat + 1
  · exact .inr ⟨h, by simp [State.fetchWord, h]⟩
  · exact .inl ⟨by omega, by simp [State.fetchWord, h]⟩

theorem wordOfBytes_toNat (hi lo : Byte) : (wordOfBytes hi lo).toNat = hi.toNat * 256 + lo.toNat := by
  simp only [wordOfBytes, BitVec.toNat_append]
  rw [Nat.shiftLeft_eq, Nat.mul_comm, ← Nat.two_pow_add_eq_or_of_lt lo.isLt]

/-- Raising a fault touches nothing but FAULT. -/
theorem raise_frame (s : State) (c : FaultCause) (w : Word) (info : Nat) :
    s.raise c w info = { s with fault := (s.raise c w info).fault } := rfl

/-- The end of an instruction touches nothing but PC. -/
@[simp] theorem finish_eq (s t : State) (sel : PcSel) : s.finish t sel = { t with pc := s.pcMux sel } := rfl

/-- An ALU instruction touches nothing but the registers and PC. -/
theorem aluStep_frame (s : State) (op : AluOp) (x : Nibble) (a b : Byte) :
    s.aluStep op x a b = { s with v := (s.aluStep op x a b).v, pc := s.pc + 2 } := by
  simp only [State.aluStep, finish_eq, State.pcMux, State.aluWriteback]
  cases aluFlag op a b <;> rfl

/-- What each register reads as after an ALU instruction: the flag in VF when there is one, else the result in Vx. -/
theorem aluStep_reg (s : State) (op : AluOp) (x r : Nibble) (a b : Byte) :
    (s.aluStep op x a b).reg r =
      match aluFlag op a b with
      | some f => if r = 0xF then flagByte f else if r = x then aluResult op a b else s.reg r
      | none => if r = x then aluResult op a b else s.reg r := by
  have h : ∀ (t : State) (w : Word), State.reg { t with pc := w } r = t.reg r := fun _ _ => rfl
  simp only [State.aluStep, finish_eq, h, State.aluWriteback]
  cases aluFlag op a b with
  | none => exact writeReg_reg s x r _
  | some f => simp only [State.writeFlag, writeReg_reg]

/-! ## Placing an instruction -/

theorem wordOfBytes_bytes (w : Word) :
    bytesOfWord w = [w.extractLsb' 8 8, w.extractLsb' 0 8] ∧
      wordOfBytes (w.extractLsb' 8 8) (w.extractLsb' 0 8) = w := by
  refine ⟨rfl, ?_⟩
  apply BitVec.eq_of_getLsbD_eq
  intro k hk
  simp only [wordOfBytes, BitVec.getLsbD_append, BitVec.getLsbD_extractLsb']
  by_cases h : k < 8
  · simp [h]
  · have h2 : 8 + (k - 8) = k := by omega
    have h3 : k - 8 < 8 := by omega
    simp [h, h2, h3]

/-- `placeWord` leaves a fetchable state: not halted, its PC in memory, with the word at PC. -/
theorem placeWord_fetch (s : State) (w : Word) (hm : s.mem.wf = true) :
    (s.placeWord w).fault.valid = false ∧ (s.placeWord w).fetchWord = some w := by
  have key : ∀ t : State, t.mem.wf = true → t.pc.toNat + 1 < 4096 →
      (t.setMem (t.mem.writeList t.pc.toNat (bytesOfWord w))).fetchWord = some w := by
    intro t ht hpc
    have hl : (bytesOfWord w).length = 2 := rfl
    have h1 := read_writeList ht (bytesOfWord w) (a := t.pc.toNat) (by omega) t.pc.toNat
    have h2 := read_writeList ht (bytesOfWord w) (a := t.pc.toNat) (by omega) (t.pc.toNat + 1)
    rw [if_pos (by omega)] at h1 h2
    have hn : ¬ t.pc.toNat + 1 ≥ 4096 := by omega
    simp only [State.fetchWord, State.setMem_pc, State.setMem_mem, hn, if_false, h1, h2]
    simpa [bytesOfWord] using (wordOfBytes_bytes w).2
  unfold State.placeWord
  by_cases hf : s.fault.valid = true <;> by_cases hp : s.pc.toNat + 1 ≥ 4096 <;>
    simp only [hf, hp, if_true, if_false, State.setFault_pc, Bool.false_eq_true] <;>
    refine ⟨?_, key _ ?_ ?_⟩ <;> simp_all [FaultStatus.clear] <;> omega

/-- A step of a state with a word placed runs exactly the instruction the decoder reads from it. -/
theorem step_withFetchWord (s : State) (nbits w : Nat) (hm : s.mem.wf = true) (i : Instr)
    (hi : decodeTableWord nbits w = some i) :
    step (s.withFetchWord nbits w) = exec i (s.withFetchWord nbits w) := by
  obtain ⟨h1, h2⟩ := placeWord_fetch s (tableWord nbits w) hm
  have h3 : decodeWord (tableWord nbits w) = .ok i := by
    simp only [decodeTableWord, bytesOfWord, decodeBytes, (wordOfBytes_bytes _).2] at hi
    cases hd : decodeWord (tableWord nbits w) with
    | error e => simp [hd] at hi
    | ok j => simpa [hd] using hi
  simp [step, State.withFetchWord, h1, h2, h3]

end Sys2Proof.Machine
end

