-- ==== Sys2Proof/Laws/Display.lean ====
section
/-! SUPPORT. What a draw does to the display: a sprite touches distinct cells, so toggling them one by one is one exclusive or. -/

namespace Sys2Proof.Machine

/-- Toggling distinct cells flips exactly those, and reports whether one of them was lit at the start. -/
theorem drawCells_spec (ks : List Nat) (d : Display) (hit : Bool) (hn : ks.Nodup) (hk : ∀ k ∈ ks, k < 2048) :
    (∀ j, Display.lit (drawCells ks d hit).1 j = (Display.lit d j ^^ decide (j ∈ ks))) ∧
    ((drawCells ks d hit).2 = true ↔ hit = true ∨ ∃ k ∈ ks, Display.lit d k = true) := by
  induction ks generalizing d hit with
  | nil => simp [drawCells]
  | cons k ks ih =>
    rw [List.nodup_cons] at hn
    have hk0 : k < 2048 := hk k (by simp)
    obtain ⟨h1, h2⟩ := ih (Display.toggle d k) (hit || Display.lit d k) hn.2 fun j hj => hk j (by simp [hj])
    refine ⟨fun j => ?_, ?_⟩
    · simp only [drawCells, h1, toggle_lit d k j hk0, List.mem_cons]
      by_cases hj : j = k
      · subst hj; simp [hn.1]
      · simp [hj]
    · simp only [drawCells, h2, Bool.or_eq_true, List.mem_cons, exists_eq_or_imp, or_assoc]
      refine or_congr_right (or_congr_right ?_)
      refine exists_congr fun j => and_congr_right fun hj => ?_
      have : j ≠ k := fun e => hn.1 (e ▸ hj)
      simp [toggle_lit d k j hk0, this]

theorem mem_rowCells {cx cy : Byte} {row k : Nat} {b : Byte} :
    k ∈ rowCells cx cy row b ↔ ∃ col < 8, spriteBit b col = true ∧ k = spriteCell cx cy row col := by
  simp only [rowCells, List.mem_map, List.mem_filter]
  constructor
  · rintro ⟨col, ⟨hc, hb⟩, rfl⟩
    exact ⟨col, by simp at hc; omega, hb, rfl⟩
  · rintro ⟨col, hc, hb, rfl⟩
    exact ⟨col, ⟨by simp; omega, hb⟩, rfl⟩

theorem mem_spriteCells {cx cy : Byte} {bytes : List Byte} {row k : Nat} :
    k ∈ spriteCells cx cy row bytes ↔
      ∃ r < bytes.length, ∃ col < 8, spriteBit (bytes.getD r 0) col = true ∧ k = spriteCell cx cy (row + r) col := by
  induction bytes generalizing row with
  | nil => simp [spriteCells]
  | cons b bs ih =>
    simp only [spriteCells, List.mem_append, mem_rowCells, ih, List.length_cons]
    constructor
    · rintro (⟨col, hc, hb, rfl⟩ | ⟨r, hr, col, hc, hb, rfl⟩)
      · exact ⟨0, by omega, col, hc, by simpa using hb, rfl⟩
      · exact ⟨r + 1, by omega, col, hc, by simpa using hb, by congr 1; omega⟩
    · rintro ⟨r, hr, col, hc, hb, rfl⟩
      cases r with
      | zero => exact .inl ⟨col, hc, by simpa using hb, rfl⟩
      | succ r => exact .inr ⟨r, by omega, col, hc, by simpa using hb, by congr 1; omega⟩

/-- Within one draw no two (row, column) offsets reach the same cell. -/
theorem spriteCell_inj {cx cy : Byte} {r r' c c' : Nat} (hr : r < 32) (hr' : r' < 32) (hc : c < 8) (hc' : c' < 8)
    (h : spriteCell cx cy r c = spriteCell cx cy r' c') : r = r' ∧ c = c' := by
  simp only [spriteCell] at h
  omega

/-- "No cell is toggled twice in one draw" (44_display_random.md R302). -/
theorem spriteCells_nodup (cx cy : Byte) (bytes : List Byte) (row : Nat) (h : row + bytes.length ≤ 32) :
    (spriteCells cx cy row bytes).Nodup := by
  induction bytes generalizing row with
  | nil => simp [spriteCells]
  | cons b bs ih =>
    simp only [List.length_cons] at h
    simp only [spriteCells]
    refine List.Nodup.append ?_ (ih (row + 1) (by omega)) ?_
    · simp only [rowCells]
      refine List.Nodup.map_on ?_ (List.Nodup.filter _ (by decide))
      intro a ha c hc e
      have ha' : a < 8 := by have := (List.mem_filter.1 ha).1; simp at this; omega
      have hc' : c < 8 := by have := (List.mem_filter.1 hc).1; simp at this; omega
      exact (spriteCell_inj (by omega) (by omega) ha' hc' e).2
    · intro k hk1 hk2
      obtain ⟨c, hc, -, rfl⟩ := mem_rowCells.1 hk1
      obtain ⟨r, hr, c', hc', -, e⟩ := mem_spriteCells.1 hk2
      have := (spriteCell_inj (by omega) (by omega) hc hc' e).1
      omega

/-- A sprite of at most 32 rows: the display after is the exclusive or with the cells it touches, and the flag says whether one of
them was lit before. -/
theorem drawSprite_spec (s : State) (cx cy : Byte) (bytes : List Byte) (h : bytes.length ≤ 32) :
    (∀ j, Display.lit (s.drawSprite cx cy bytes).1 j =
      (Display.lit s.disp j ^^ decide (j ∈ spriteCells cx cy 0 bytes))) ∧
    ((s.drawSprite cx cy bytes).2 = true ↔ ∃ k ∈ spriteCells cx cy 0 bytes, Display.lit s.disp k = true) := by
  have hk : ∀ k ∈ spriteCells cx cy 0 bytes, k < 2048 := by
    intro k hk
    obtain ⟨r, -, c, -, -, rfl⟩ := mem_spriteCells.1 hk
    exact spriteCell_lt ..
  have := drawCells_spec (spriteCells cx cy 0 bytes) s.disp false (spriteCells_nodup cx cy bytes 0 (by omega)) hk
  simpa [State.drawSprite] using this

end Sys2Proof.Machine
end

