-- ==== Sys2Proof/Laws/Fields.lean ====
section
/-! SUPPORT. The fields of a word built in each format of 30_encoding.md R102, and a word as its fields. -/

namespace Sys2Proof

theorem getLsbD_format_nnn (d : Nibble) (a : Addr12) (k : Nat) :
    BitVec.getLsbD (w := 16) (d ++ a) k = if k < 12 then a.getLsbD k else d.getLsbD (k - 12) := by
  simpa [Bool.cond_eq_ite] using BitVec.getLsbD_append (x := d) (y := a) (i := k)

theorem getLsbD_format_xnn (d x : Nibble) (nn : Byte) (k : Nat) :
    BitVec.getLsbD (w := 16) (d ++ x ++ nn) k =
      if k < 8 then nn.getLsbD k else if k - 8 < 4 then x.getLsbD (k - 8) else d.getLsbD (k - 12) := by
  have h : BitVec.getLsbD (w := 16) (d ++ x ++ nn) k = BitVec.getLsbD ((d ++ x : BitVec (4 + 4)) ++ nn) k := rfl
  rw [h, BitVec.getLsbD_append, BitVec.getLsbD_append]
  simp [Nat.sub_sub]

theorem getLsbD_format_xyn (d x y n : Nibble) (k : Nat) :
    BitVec.getLsbD (w := 16) (d ++ x ++ y ++ n) k =
      if k < 4 then n.getLsbD k else if k - 4 < 4 then y.getLsbD (k - 4)
      else if k - 8 < 4 then x.getLsbD (k - 8) else d.getLsbD (k - 12) := by
  have h : BitVec.getLsbD (w := 16) (d ++ x ++ y ++ n) k =
      BitVec.getLsbD (((d ++ x : BitVec (4 + 4)) ++ y : BitVec (4 + 4 + 4)) ++ n) k := rfl
  rw [h, BitVec.getLsbD_append, BitVec.getLsbD_append, BitVec.getLsbD_append]
  simp [Nat.sub_sub]

theorem fields_nnn (d : Nibble) (a : Addr12) : fieldD1 (d ++ a) = d ∧ fieldNNN (d ++ a) = a := by
  constructor <;> apply BitVec.eq_of_getLsbD_eq <;> intro k hk <;>
    simp only [fieldD1, fieldNNN, BitVec.getLsbD_extractLsb', getLsbD_format_nnn] <;> simp [hk]

theorem fields_xnn (d x : Nibble) (nn : Byte) :
    fieldD1 (d ++ x ++ nn) = d ∧ fieldX (d ++ x ++ nn) = x ∧ fieldNN (d ++ x ++ nn) = nn := by
  refine ⟨?_, ?_, ?_⟩ <;> apply BitVec.eq_of_getLsbD_eq <;> intro k hk <;>
    simp only [fieldD1, fieldX, fieldNN, BitVec.getLsbD_extractLsb', getLsbD_format_xnn] <;> interval_cases k <;> simp

theorem fields_xyn (d x y n : Nibble) :
    fieldD1 (d ++ x ++ y ++ n) = d ∧ fieldX (d ++ x ++ y ++ n) = x ∧ fieldY (d ++ x ++ y ++ n) = y ∧
      fieldN (d ++ x ++ y ++ n) = n := by
  refine ⟨?_, ?_, ?_, ?_⟩ <;> apply BitVec.eq_of_getLsbD_eq <;> intro k hk <;>
    simp only [fieldD1, fieldX, fieldY, fieldN, BitVec.getLsbD_extractLsb', getLsbD_format_xyn] <;> interval_cases k <;> simp

theorem word_as_nnn (w : Word) : fieldD1 w ++ fieldNNN w = w := by
  apply BitVec.eq_of_getLsbD_eq
  intro k hk
  rw [getLsbD_format_nnn]
  simp only [fieldD1, fieldNNN, BitVec.getLsbD_extractLsb']
  interval_cases k <;> simp

theorem word_as_xnn (w : Word) : fieldD1 w ++ fieldX w ++ fieldNN w = w := by
  apply BitVec.eq_of_getLsbD_eq
  intro k hk
  rw [getLsbD_format_xnn]
  simp only [fieldD1, fieldX, fieldNN, BitVec.getLsbD_extractLsb']
  interval_cases k <;> simp

theorem word_as_xyn (w : Word) : fieldD1 w ++ fieldX w ++ fieldY w ++ fieldN w = w := by
  apply BitVec.eq_of_getLsbD_eq
  intro k hk
  rw [getLsbD_format_xyn]
  simp only [fieldD1, fieldX, fieldY, fieldN, BitVec.getLsbD_extractLsb']
  interval_cases k <;> simp

theorem fieldD1_toNat (w : Word) : (fieldD1 w).toNat = w.toNat / 4096 := by
  have := w.isLt
  simp [fieldD1, Nat.shiftRight_eq_div_pow]; omega

theorem fieldN_toNat (w : Word) : (fieldN w).toNat = w.toNat % 16 := by simp [fieldN]

theorem fieldNN_toNat (w : Word) : (fieldNN w).toNat = w.toNat % 256 := by simp [fieldNN]

end Sys2Proof
end

