-- ==== Sys2Proof/Laws/PerInstr.lean ====
section
/-! SUPPORT. Statements about every instruction as syntax, one lemma per constructor. Family EncodingRow: the encoder's word
matches the instruction's row of the decode table. -/

namespace Sys2Proof.Laws

/-- The word the encoder gives matches the instruction's own row: `w AND mask = match` (30_encoding.md R107). -/
def EncodingRow.Statement (i : Instr) : Prop := i.row.accepts (encode i) = true

theorem and_format_nnn (d : Nibble) (a : Addr12) : (d ++ a) &&& 0xF000#16 = d ++ 0#12 := by
  have h : (0xF000#16 : BitVec (4 + 12)) = 0xF#4 ++ 0x000#12 := rfl
  rw [h, BitVec.and_append]
  exact congrArg₂ _ (BitVec.and_allOnes (x := d)) BitVec.and_zero

theorem and_format_xnn (d x : Nibble) (nn : Byte) : (d ++ x ++ nn) &&& 0xF000#16 = d ++ 0#4 ++ 0#8 := by
  have h : (0xF000#16 : BitVec (4 + 4 + 8)) = 0xF#4 ++ 0x0#4 ++ 0x00#8 := rfl
  rw [h, BitVec.and_append, BitVec.and_append]
  exact congrArg₂ _ (congrArg₂ _ (BitVec.and_allOnes (x := d)) BitVec.and_zero) BitVec.and_zero

theorem and_format_xy (d x y f : Nibble) : (d ++ x ++ y ++ f) &&& 0xF00F#16 = d ++ 0#4 ++ 0#4 ++ f := by
  have h : (0xF00F#16 : BitVec (4 + 4 + 4 + 4)) = 0xF#4 ++ 0x0#4 ++ 0x0#4 ++ 0xF#4 := rfl
  rw [h, BitVec.and_append, BitVec.and_append, BitVec.and_append]
  exact congrArg₂ _ (congrArg₂ _ (congrArg₂ _ (BitVec.and_allOnes (x := d)) BitVec.and_zero) BitVec.and_zero)
    (BitVec.and_allOnes (x := f))

theorem and_format_xyn (d x y n : Nibble) : (d ++ x ++ y ++ n) &&& 0xF000#16 = d ++ 0#4 ++ 0#4 ++ 0#4 := by
  have h : (0xF000#16 : BitVec (4 + 4 + 4 + 4)) = 0xF#4 ++ 0x0#4 ++ 0x0#4 ++ 0x0#4 := rfl
  rw [h, BitVec.and_append, BitVec.and_append, BitVec.and_append]
  exact congrArg₂ _ (congrArg₂ _ (congrArg₂ _ (BitVec.and_allOnes (x := d)) BitVec.and_zero) BitVec.and_zero) BitVec.and_zero

theorem and_format_x (d x : Nibble) (k : Byte) : (d ++ x ++ k) &&& 0xF0FF#16 = d ++ 0#4 ++ k := by
  have h : (0xF0FF#16 : BitVec (4 + 4 + 8)) = 0xF#4 ++ 0x0#4 ++ 0xFF#8 := rfl
  rw [h, BitVec.and_append, BitVec.and_append]
  exact congrArg₂ _ (congrArg₂ _ (BitVec.and_allOnes (x := d)) BitVec.and_zero) (BitVec.and_allOnes (x := k))

theorem accepts_of_and {r : OpRow} {w : Word} (h : w &&& r.mask = r.pattern) : r.accepts w = true := by
  simp [OpRow.accepts, h]

theorem EncodingRow.nop : EncodingRow.Statement (.nop) := rfl
theorem EncodingRow.cls : EncodingRow.Statement (.cls) := rfl
theorem EncodingRow.ret : EncodingRow.Statement (.ret) := rfl
theorem EncodingRow.jp (nnn : Addr12) : EncodingRow.Statement (.jp nnn) := accepts_of_and (and_format_nnn ..)
theorem EncodingRow.call (nnn : Addr12) : EncodingRow.Statement (.call nnn) := accepts_of_and (and_format_nnn ..)
theorem EncodingRow.seImm (x : Nibble) (nn : Byte) : EncodingRow.Statement (.seImm x nn) := accepts_of_and (and_format_xnn ..)
theorem EncodingRow.sneImm (x : Nibble) (nn : Byte) : EncodingRow.Statement (.sneImm x nn) := accepts_of_and (and_format_xnn ..)
theorem EncodingRow.seReg (x y : Nibble) : EncodingRow.Statement (.seReg x y) := accepts_of_and (and_format_xy ..)
theorem EncodingRow.ldImm (x : Nibble) (nn : Byte) : EncodingRow.Statement (.ldImm x nn) := accepts_of_and (and_format_xnn ..)
theorem EncodingRow.addImm (x : Nibble) (nn : Byte) : EncodingRow.Statement (.addImm x nn) := accepts_of_and (and_format_xnn ..)
theorem EncodingRow.ldReg (x y : Nibble) : EncodingRow.Statement (.ldReg x y) := accepts_of_and (and_format_xy ..)
theorem EncodingRow.or (x y : Nibble) : EncodingRow.Statement (.or x y) := accepts_of_and (and_format_xy ..)
theorem EncodingRow.and (x y : Nibble) : EncodingRow.Statement (.and x y) := accepts_of_and (and_format_xy ..)
theorem EncodingRow.xor (x y : Nibble) : EncodingRow.Statement (.xor x y) := accepts_of_and (and_format_xy ..)
theorem EncodingRow.addReg (x y : Nibble) : EncodingRow.Statement (.addReg x y) := accepts_of_and (and_format_xy ..)
theorem EncodingRow.sub (x y : Nibble) : EncodingRow.Statement (.sub x y) := accepts_of_and (and_format_xy ..)
theorem EncodingRow.shr (x z : Nibble) : EncodingRow.Statement (.shr x z) := accepts_of_and (and_format_xy ..)
theorem EncodingRow.subn (x y : Nibble) : EncodingRow.Statement (.subn x y) := accepts_of_and (and_format_xy ..)
theorem EncodingRow.shl (x z : Nibble) : EncodingRow.Statement (.shl x z) := accepts_of_and (and_format_xy ..)
theorem EncodingRow.se9Reg (x y : Nibble) : EncodingRow.Statement (.se9Reg x y) := accepts_of_and (and_format_xy ..)
theorem EncodingRow.ldI (nnn : Addr12) : EncodingRow.Statement (.ldI nnn) := accepts_of_and (and_format_nnn ..)
theorem EncodingRow.jpV0 (nnn : Addr12) : EncodingRow.Statement (.jpV0 nnn) := accepts_of_and (and_format_nnn ..)
theorem EncodingRow.rnd (x : Nibble) (nn : Byte) : EncodingRow.Statement (.rnd x nn) := accepts_of_and (and_format_xnn ..)
theorem EncodingRow.drw (x y n : Nibble) : EncodingRow.Statement (.drw x y n) := accepts_of_and (and_format_xyn ..)
theorem EncodingRow.skp (x : Nibble) : EncodingRow.Statement (.skp x) := accepts_of_and (and_format_x ..)
theorem EncodingRow.sknp (x : Nibble) : EncodingRow.Statement (.sknp x) := accepts_of_and (and_format_x ..)
theorem EncodingRow.ldVxDt (x : Nibble) : EncodingRow.Statement (.ldVxDt x) := accepts_of_and (and_format_x ..)
theorem EncodingRow.ldVxK (x : Nibble) : EncodingRow.Statement (.ldVxK x) := accepts_of_and (and_format_x ..)
theorem EncodingRow.ldDtVx (x : Nibble) : EncodingRow.Statement (.ldDtVx x) := accepts_of_and (and_format_x ..)
theorem EncodingRow.ldStVx (x : Nibble) : EncodingRow.Statement (.ldStVx x) := accepts_of_and (and_format_x ..)
theorem EncodingRow.addIVx (x : Nibble) : EncodingRow.Statement (.addIVx x) := accepts_of_and (and_format_x ..)
theorem EncodingRow.ldFVx (x : Nibble) : EncodingRow.Statement (.ldFVx x) := accepts_of_and (and_format_x ..)
theorem EncodingRow.ldBVx (x : Nibble) : EncodingRow.Statement (.ldBVx x) := accepts_of_and (and_format_x ..)
theorem EncodingRow.ldMemVx (x : Nibble) : EncodingRow.Statement (.ldMemVx x) := accepts_of_and (and_format_x ..)
theorem EncodingRow.ldVxMem (x : Nibble) : EncodingRow.Statement (.ldVxMem x) := accepts_of_and (and_format_x ..)

end Sys2Proof.Laws
end

