-- ==== Sys2Proof/Tests/Slice0.lean ====
section
/-! SUPPORT. The model's own tests. Expected values come from the spec: 95_test_vectors.md (T-...), 30_encoding.md R107, R109 and the
rules' own examples. The witnesses at the end meet the hypotheses of the statements in Certificates/Slice0/Obligations.lean. -/

namespace Sys2Proof.Tests

open Sys2Proof Sys2Proof.Machine

/-! ## Helpers -/

/-- One step from `s` with the word `w` at PC ends in a next state that passes `p`. -/
def stepGives (s : State) (w : Nat) (p : State → Bool) : Bool :=
  match step (s.withFetchWord 16 w) with
  | .next t => p t
  | .fault _ => false
  | .refused _ => false

/-- One step from `s` with `w` at PC faults with the given FAULT and changes nothing else. -/
def stepFaults (s : State) (w : Nat) (f : FaultStatus) : Bool :=
  stepGives s w fun t => t == { (s.withFetchWord 16 w) with fault := f }

def z : State := State.reset
/-- `z` with two registers set. -/
def z2 (x : Nibble) (a : Byte) (y : Nibble) (b : Byte) : State := (z.writeReg x a).writeReg y b
/-- `z` with some keys pressed. -/
def zKeys (ks : List Nat) : State := z.setKeys (ks.foldl (fun k j => k.setIfInBounds j true) z.key)
/-- `z` with SP and STACK[0] set. -/
def zStack (sp : Fin 17) (w : Word) : State := z.setStack (z.stack.setIfInBounds 0 w) sp
/-- `z` halted by a fault. -/
def zHalted : State := z.raise .stackUnderflow 0x00EE 0

/-! ## Well-formedness: a word of each unrecognized family of R109 is refused -/

theorem test_ill_formed_words :
    [0x0123, 0x00E1, 0x5121, 0x8128, 0x812F, 0x9121, 0xE09F, 0xF000, 0xFFFF].all (fun w => !wordWellFormed w) = true := by decide

theorem test_table_has_35_distinct_rows : opTable.length = 35 ∧ opTable.Nodup := by decide

/-! ## Decoding, by words written out from R107 -/

theorem test_decode_family_0 :
    decodeWord 0b0000000000000000 = .ok .nop ∧ decodeWord 0b0000000011100000 = .ok .cls ∧
    decodeWord 0b0000000011101110 = .ok .ret := by decide
theorem test_decode_addresses :
    decodeWord 0b0001001000110100 = .ok (.jp 0x234) ∧ decodeWord 0b0010001100000000 = .ok (.call 0x300) ∧
    decodeWord 0b1010001011110000 = .ok (.ldI 0x2F0) ∧ decodeWord 0b1011000111111111 = .ok (.jpV0 0x1FF) := by decide
theorem test_decode_immediates :
    decodeWord 0b0011001100101010 = .ok (.seImm 3 0x2A) ∧ decodeWord 0b0100001100101010 = .ok (.sneImm 3 0x2A) ∧
    decodeWord 0b0110101001000010 = .ok (.ldImm 0xA 0x42) ∧ decodeWord 0b0111000100100000 = .ok (.addImm 1 0x20) ∧
    decodeWord 0b1100001100001111 = .ok (.rnd 3 0x0F) := by decide
theorem test_decode_register_pairs :
    decodeWord 0b0101000100100000 = .ok (.seReg 1 2) ∧ decodeWord 0b1001000100100000 = .ok (.se9Reg 1 2) ∧
    decodeWord 0b1101000000010101 = .ok (.drw 0 1 5) := by decide
theorem test_decode_family_8 :
    decodeWord 0b1000000100100000 = .ok (.ldReg 1 2) ∧ decodeWord 0b1000000100100001 = .ok (.or 1 2) ∧
    decodeWord 0b1000000100100010 = .ok (.and 1 2) ∧ decodeWord 0b1000000100100011 = .ok (.xor 1 2) ∧
    decodeWord 0b1000000100100100 = .ok (.addReg 1 2) ∧ decodeWord 0b1000000100100101 = .ok (.sub 1 2) ∧
    decodeWord 0b1000000100100110 = .ok (.shr 1 2) ∧ decodeWord 0b1000000100100111 = .ok (.subn 1 2) ∧
    decodeWord 0b1000000100101110 = .ok (.shl 1 2) := by decide
theorem test_decode_family_e :
    decodeWord 0b1110001010011110 = .ok (.skp 2) ∧ decodeWord 0b1110001010100001 = .ok (.sknp 2) := by decide
theorem test_decode_family_f :
    decodeWord 0b1111001100000111 = .ok (.ldVxDt 3) ∧ decodeWord 0b1111010100001010 = .ok (.ldVxK 5) ∧
    decodeWord 0b1111010000010101 = .ok (.ldDtVx 4) ∧ decodeWord 0b1111010000011000 = .ok (.ldStVx 4) ∧
    decodeWord 0b1111001000011110 = .ok (.addIVx 2) ∧ decodeWord 0b1111101000101001 = .ok (.ldFVx 0xA) ∧
    decodeWord 0b1111010100110011 = .ok (.ldBVx 5) ∧ decodeWord 0b1111001001010101 = .ok (.ldMemVx 2) ∧
    decodeWord 0b1111000101100101 = .ok (.ldVxMem 1) := by decide
theorem test_decode_refuses_by_name :
    decodeWord 0x00E1 = .error .systemWord ∧ decodeWord 0x5121 = .error .skipEqualWord ∧
    decodeWord 0x8128 = .error .aluWord ∧ decodeWord 0x9121 = .error .skipNineWord ∧
    decodeWord 0xE09F = .error .keyWord ∧ decodeWord 0xF000 = .error .miscWord ∧
    decodeBytes [0x12] = .error .tooShort := by decide
theorem test_decode_bytes_big_endian : decodeBytes [0x81, 0x24, 0x99] = .ok (.addReg 1 2, [0x99]) := by decide
theorem test_encode_words : encode (.drw 0 1 5) = 0xD015 ∧ encode (.ldVxMem 1) = 0xF165 ∧ encode (.shl 1 2) = 0x812E := by decide

/-! ## Parameters and codes -/

theorem test_font_shape : Config.font.length = 80 ∧ Config.font.getD 50 0 = 0xF0 ∧ Config.font.getD 79 0 = 0x80 := by decide
theorem test_cause_codes :
    [FaultCause.none, .fetchOob, .illegalOpcode, .stackOverflow, .stackUnderflow, .memOob, .keyRange, .loadOob].map
      FaultCause.code = [0, 1, 2, 3, 4, 5, 6, 7] := by decide

/-! ## Fetch and decode faults -/

theorem test_fetch_last_word : stepGives (z.setPc 0xFFE) 0x6001 (fun t => t.reg 0 == 1 && t.pc == 0x1000) = true := by decide -- T-ST-1
theorem test_fetch_oob_fff :                                                                                               -- T-ST-2
    (match step (z.setPc 0xFFF) with | .next t => t == { (z.setPc 0xFFF) with fault := ⟨true, .fetchOob, 0xFFF, 0, 0xFFF⟩ }
                                     | _ => false) = true := by decide
theorem test_unrecognized : stepFaults z 0x0123 ⟨true, .illegalOpcode, 0x200, 0x0123, 0⟩ = true := by decide              -- T-ST-4
theorem test_odd_pc : stepGives (z.setPc 0x201) 0x6055 (fun t => t.reg 0 == 0x55 && t.pc == 0x203) = true := by decide     -- T-ST-7

/-! ## Control flow -/

theorem test_nop : stepGives z 0x0000 (fun t => t == z.setPc 0x202) = true := by decide                                   -- T-CF-1
theorem test_jp : stepGives z 0x1234 (fun t => t.pc == 0x234) = true := by decide                                         -- T-CF-2
theorem test_call : stepGives (z.setPc 0x204) 0x2300                                                                      -- T-CF-4
    (fun t => t.pc == 0x300 && t.sp == 1 && t.stack[0] == 0x206) = true := by decide
theorem test_call_overflow :                                                                                              -- T-CF-5
    stepFaults ((zStack 16 0).setPc 0x204) 0x2300 ⟨true, .stackOverflow, 0x204, 0x2300, 0⟩ = true := by decide
theorem test_ret : stepGives (zStack 1 0x206) 0x00EE (fun t => t.pc == 0x206 && t.sp == 0 && t.stack[0] == 0x206) = true := by
  decide                                                                                                                  -- T-CF-6
theorem test_ret_underflow : stepFaults z 0x00EE ⟨true, .stackUnderflow, 0x200, 0x00EE, 0⟩ = true := by decide            -- T-CF-7
theorem test_jp_v0 : stepGives (z2 0 0x02 1 0xFF) 0xB1FF (fun t => t.pc == 0x201) = true := by decide                     -- T-CF-11
theorem test_se_imm : stepGives (z2 3 0x2A 0 0) 0x332A (fun t => t.pc == 0x204) = true := by decide                       -- T-SK-1
theorem test_se_imm_end : stepGives (z.setPc 0xFFE) 0x3000 (fun t => t.pc == 0x1002) = true := by decide                  -- T-SK-10
theorem test_sne_imm : stepGives (z2 3 0x2B 0 0) 0x432A (fun t => t.pc == 0x204) = true := by decide                      -- T-SK-3
theorem test_sne_imm_equal : stepGives (z2 3 0x2A 0 0) 0x432A (fun t => t.pc == 0x202) = true := by decide                -- T-SK-4
theorem test_se_reg : stepGives (z2 1 7 2 7) 0x5120 (fun t => t.pc == 0x204) = true := by decide                          -- T-SK-5
theorem test_se9_equal : stepGives (z2 1 7 2 7) 0x9120 (fun t => t.pc == 0x204) = true := by decide                       -- T-SK-6
theorem test_se9_differ : stepGives (z2 1 7 2 8) 0x9120 (fun t => t.pc == 0x202) = true := by decide                      -- T-SK-7

/-! ## Registers and ALU -/

theorem test_ld_imm : stepGives z 0x6A42 (fun t => t.reg 0xA == 0x42) = true := by decide                                 -- T-AL-1
theorem test_add_imm : stepGives (z2 1 0xF0 0xF 5) 0x7120 (fun t => t.reg 1 == 0x10 && t.reg 0xF == 5) = true := by decide -- T-AL-2
theorem test_add_imm_vf : stepGives (z2 0xF 0xFF 0 0) 0x7F01 (fun t => t.reg 0xF == 0) = true := by decide                -- T-AL-4
theorem test_ld_reg : stepGives (z2 2 0x99 0 0) 0x8120 (fun t => t.reg 1 == 0x99) = true := by decide                     -- T-AL-5
theorem test_or : stepGives ((z2 1 0x0F 2 0xF0).writeReg 0xF 0x55) 0x8121                                                 -- T-AL-6
    (fun t => t.reg 1 == 0xFF && t.reg 0xF == 0x55) = true := by decide
theorem test_and : stepGives (z2 1 0x3C 2 0x0F) 0x8122 (fun t => t.reg 1 == 0x0C) = true := by decide                     -- T-AL-7
theorem test_xor : stepGives (z2 1 0x3C 2 0x0F) 0x8123 (fun t => t.reg 1 == 0x33) = true := by decide                     -- T-AL-8
theorem test_add_reg : stepGives (z2 1 0xF0 2 0x20) 0x8124 (fun t => t.reg 1 == 0x10 && t.reg 0xF == 1) = true := by decide -- T-AL-10
theorem test_add_reg_vf : stepGives (z2 0 0x10 0xF 0xFF) 0x80F4 (fun t => t.reg 0 == 0x0F && t.reg 0xF == 1) = true := by
  decide                                                                                                                  -- T-AL-16
theorem test_sub : stepGives (z2 1 0x10 2 0x20) 0x8125 (fun t => t.reg 1 == 0xF0 && t.reg 0xF == 0) = true := by decide   -- T-AL-17
theorem test_sub_equal : stepGives (z2 1 0x20 2 0x20) 0x8125 (fun t => t.reg 1 == 0 && t.reg 0xF == 1) = true := by decide -- T-AL-18
theorem test_shr_vf : stepGives (z2 0xF 0x02 0 0) 0x8F06 (fun t => t.reg 0xF == 0) = true := by decide                    -- T-AL-25
theorem test_shr_source : stepGives (z2 1 0x04 2 0xFF) 0x8126 (fun t => t.reg 1 == 2 && t.reg 0xF == 0) = true := by decide -- T-AL-26
theorem test_subn : stepGives (z2 1 0x20 2 0x10) 0x8127 (fun t => t.reg 1 == 0xF0 && t.reg 0xF == 0) = true := by decide  -- T-AL-27
theorem test_subn_vf : stepGives (z2 0xF 0x01 0 0x03) 0x8F07 (fun t => t.reg 0xF == 1) = true := by decide                -- T-AL-30
theorem test_shl : stepGives (z2 1 0x81 0 0) 0x810E (fun t => t.reg 1 == 2 && t.reg 0xF == 1) = true := by decide         -- T-AL-31
theorem test_shl_vf : stepGives (z2 0xF 0x40 0 0) 0x8F0E (fun t => t.reg 0xF == 0) = true := by decide                    -- T-AL-34

/-! ## Index register and memory -/

theorem test_ld_i : stepGives z 0xA2F0 (fun t => t.i == 0x2F0) = true := by decide                                        -- T-IM-1
theorem test_add_i_wraps : stepGives ((z2 2 1 0 0).setI 0xFFFF) 0xF21E (fun t => t.i == 0) = true := by decide            -- T-IM-3
theorem test_ld_f_unmasked : stepGives (z2 1 0xFF 0 0) 0xF129 (fun t => t.i == 0x4FB) = true := by decide                 -- T-IM-6
theorem test_bcd : stepGives ((z2 5 0xFF 0 0).setI 0x300) 0xF533                                                          -- T-IM-8
    (fun t => t.mem.readList 0x300 4 == [2, 5, 5, 0] && t.i == 0x300) = true := by decide
theorem test_bcd_oob : stepFaults ((z2 0 0x80 1 0).setI 0xFFE) 0xF033 ⟨true, .memOob, 0x200, 0xF033, 0x1000⟩ = true := by
  decide                                                                                                                  -- T-IM-11
theorem test_store : stepGives (((z2 0 0x11 1 0x22).writeReg 2 0x33).setI 0x400) 0xF255                                   -- T-IM-13
    (fun t => t.mem.readList 0x400 4 == [0x11, 0x22, 0x33, 0] && t.i == 0x400) = true := by decide
theorem test_store_oob : stepFaults ((z2 0 0x11 0xF 0xFF).setI 0xFF1) 0xFF55 ⟨true, .memOob, 0x200, 0xFF55, 0x1000⟩ = true := by
  decide                                                                                                                  -- T-IM-15
theorem test_load : stepGives ((z.setMem (z.mem.writeList 0x400 [0x11, 0x22, 0x33])).setI 0x400) 0xF165                   -- T-IM-16
    (fun t => t.reg 0 == 0x11 && t.reg 1 == 0x22 && t.reg 2 == 0) = true := by decide
theorem test_load_last_byte : stepGives ((z.setMem (z.mem.write 0xFFF 0x77)).setI 0xFFF) 0xF065                           -- T-IM-18
    (fun t => t.reg 0 == 0x77) = true := by decide

/-! ## Display and random -/

theorem test_cls : stepGives (z.setDisp (Display.toggle z.disp 2047)) 0x00E0 (fun t => t == (z.placeWord 0x00E0).setPc 0x202) = true := by
  decide                                                                                                                  -- T-DR-1
theorem test_rnd :                                                                                                        -- T-DR-2
    (match execRndWith 0xB7 3 0x0F z with | .next t => t.reg 3 == 0x07 | _ => false) = true := by decide
theorem test_draw_wraps : stepGives (((z2 0 0x3F 1 0x1F).setMem (z.mem.write 0x20C 0x81)).setI 0x20C) 0xD011              -- T-DR-5
    (fun t => t.disp == Display.toggle (Display.toggle Display.dark 2047) 1990 && t.reg 0xF == 0) = true := by decide
theorem test_draw_collides :                                                                                              -- T-DR-6
    stepGives ((((z2 0 0x3F 1 0x1F).setMem (z.mem.write 0x20C 0x81)).setI 0x20C).setDisp (Display.toggle z.disp 2047)) 0xD011
      (fun t => t.disp == Display.toggle Display.dark 1990 && t.reg 0xF == 1) = true := by decide

/-! ## Keys and timers -/

theorem test_skp : stepGives ((zKeys [5]).writeReg 2 5) 0xE29E (fun t => t.pc == 0x204) = true := by decide               -- T-KT-1
theorem test_skp_range : stepFaults ((zKeys [0]).writeReg 2 0x10) 0xE29E ⟨true, .keyRange, 0x200, 0xE29E, 0x10⟩ = true := by
  decide                                                                                                                  -- T-KT-5
theorem test_sknp : stepGives (z.writeReg 2 5) 0xE2A1 (fun t => t.pc == 0x204) = true := by decide                        -- T-KT-3
theorem test_sknp_pressed : stepGives ((zKeys [5]).writeReg 2 5) 0xE2A1 (fun t => t.pc == 0x202) = true := by decide      -- T-KT-4
theorem test_ld_vx_dt : stepGives (z.setDt 0x3C) 0xF307 (fun t => t.reg 3 == 0x3C) = true := by decide                    -- T-KT-7
theorem test_key_wait_rewinds : stepGives z 0xF50A (fun t => t == z.placeWord 0xF50A) = true := by decide                 -- T-KT-8
theorem test_key_wait_least : stepGives (zKeys [3, 9]) 0xF50A (fun t => t.reg 5 == 3 && t.pc == 0x202) = true := by decide -- T-KT-9
theorem test_ld_dt : stepGives (z.writeReg 4 0x3C) 0xF415 (fun t => t.dt == 0x3C && t.st == 0) = true := by decide        -- T-KT-11
theorem test_ld_st : stepGives (z.writeReg 4 2) 0xF418 (fun t => t.st == 2 && t.dt == 0) = true := by decide              -- T-KT-12

/-! ## Host transactions -/

theorem test_load_program : ((z.load [0x12, 0x34, 0x56, 0x78]).mem.readList 0x200 5, (z.load [0x12]).pc) =                -- T-HT-3
    ([0x12, 0x34, 0x56, 0x78, 0], 0x200) := by decide
theorem test_tick : (((z.setDt 2).setSt 1).tick.dt, ((z.setDt 2).setSt 1).tick.st, ((z.setDt 2).setSt 1).soundStop) =     -- T-HT-6
    (1, 0, true) := by decide
theorem test_tick_at_zero : z.tick = z := by decide                                                                       -- T-HT-7
theorem test_set_key : (z.setKey 7 true).key[7] = true ∧ (z.setKey 7 true).setKey 7 false = z := by decide                -- T-HT-9
theorem test_halted_stands : zHalted.tick = zHalted ∧ zHalted.setKey 1 true = zHalted ∧ zHalted.load [0xFF] = zHalted := by
  decide                                                                                                                  -- T-HT-10
theorem test_restart : ((zHalted.setPc 0x345).setI 0x123).restart = z := by decide                                        -- T-HT-1

/-! ## Witnesses: concrete states that meet the hypotheses of the statements -/

theorem witness_EncodeOfDecode : decodeWord 0x8124 = .ok (.addReg 1 2) := by decide
theorem witness_DecodeMatchesExactlyOneRow :
    decodeWord 0xF165 = .ok (.ldVxMem 1) ∧ (⟨0xF065, 0xF0FF⟩ : OpRow) ∈ opTable ∧ OpRow.accepts ⟨0xF065, 0xF0FF⟩ 0xF165 = true ∧
    (∀ r ∈ opTable, r.accepts 0x0123 = false) := by decide
theorem witness_StepRunsTheDecodedInstruction :
    z.running ∧ z.pc.toNat + 1 < 4096 ∧ decodeWord (z.mem.read z.pc.toNat ++ z.mem.read (z.pc.toNat + 1)) = .ok .nop := by decide
theorem witness_FetchIsBigEndianAndBounded :
    (z.setPc 0xFFE).pc.toNat + 1 < 4096 ∧ (z.setPc 0xFFF).running ∧ 4096 ≤ (z.setPc 0xFFF).pc.toNat + 1 := by decide
theorem witness_UnrecognizedOpcodeFaults :
    (z.placeWord 0xFFFF).running ∧ (z.placeWord 0xFFFF).fetchWord = some 0xFFFF ∧ decodeWord 0xFFFF = .error .miscWord := by decide
theorem witness_ExecuteFaultsAreTheListedOnes :
    (zStack 16 0).running ∧ execFault (.call 0x300) (zStack 16 0) = some (.stackOverflow, 0) ∧
    execFault (.call 0x300) (zStack 15 0) = none ∧ execFault .ret z = some (.stackUnderflow, 0) ∧
    execFault (.ldBVx 0) (z.setI 0xFFD) = none ∧ execFault (.ldBVx 0) (z.setI 0xFFE) = some (.memOob, 4096) ∧
    execFault (.drw 0 0 0) (z.setI 0xFFFF) = none ∧ execFault (.drw 0 0 15) (z.setI 0xFF2) = some (.memOob, 4096) ∧
    execFault (.skp 0) (z.writeReg 0 16) = some (.keyRange, 16) ∧ execFault (.skp 0) (z.writeReg 0 15) = none := by decide
theorem witness_ExecuteFaults_answers : (zStack 16 0).running ∧ (∃ t, exec (.call 0x300) (zStack 16 0) = .next t) ∧
    execFault (.call 0x300) (zStack 16 0) = some (.stackOverflow, 0) := ⟨by decide, ⟨_, rfl⟩, by decide⟩
theorem witness_FaultsArePrecise :
    (z.setPc 0xFFF).running ∧ transact .step (z.setPc 0xFFF) = .next ((z.setPc 0xFFF).raise .fetchOob 0 0xFFF) ∧
    ((z.setPc 0xFFF).raise .fetchOob 0 0xFFF).halted := ⟨by decide, rfl, by decide⟩
theorem witness_StepFaultPriority :
    (z.setPc 0xFFF).running ∧ (∃ t, step (z.setPc 0xFFF) = .next t) ∧ 4096 ≤ (z.setPc 0xFFF).pc.toNat + 1 ∧
    (z.placeWord 0xFFFF).running ∧ (z.placeWord 0x00EE).running ∧ (∃ t, step (z.placeWord 0xFFFF) = .next t) ∧ (z.placeWord 0xFFFF).fetchWord = some 0xFFFF ∧
    decodeWord 0xFFFF = .error .miscWord ∧ (∃ t, step (z.placeWord 0x00EE) = .next t) ∧
    (z.placeWord 0x00EE).fetchWord = some 0x00EE ∧ execFault .ret (z.placeWord 0x00EE) = some (.stackUnderflow, 0) :=
  ⟨by decide, ⟨_, rfl⟩, by decide, by decide, by decide, ⟨_, rfl⟩, by decide, by decide, ⟨_, rfl⟩, by decide, by decide⟩
theorem witness_halted : zHalted.halted ∧ Transaction.reset ∉ [Transaction.step, .tick, .setKey 1 true, .load [0xFF]] := by decide
theorem witness_NopOnlyAdvances :
    (z.setPc 0xFFE).running ∧ (z.setPc 0xFFE).pc.toNat ≤ 0xFFE ∧ (z.setPc 0xFFE).mem.read 0xFFE = 0 ∧
    (z.setPc 0xFFE).mem.read 0xFFF = 0 ∧ (z.setPc 0x1000).running ∧ (z.setPc 0x1000).pc = 0x1000 := by decide
theorem witness_RetPopsIntoPc : z.sp.val = 0 ∧ (zStack 1 0x206).sp.val ≠ 0 ∧ (zStack 16 0x206).sp.val ≠ 0 := by decide
theorem witness_CallPushesTheNextAddress : (zStack 16 0).sp.val = 16 ∧ (zStack 15 0).sp.val < 16 ∧ z.sp.val < 16 := by decide
theorem witness_ReturnGoesBackToTheCall :
    ∃ t, z.sp.val < 16 ∧ exec (.call 0x300) z = .next t ∧ t.sp.val = 1 := ⟨_, by decide, rfl, by decide⟩
theorem witness_BcdStoresThreeDigits :
    4096 ≤ (z.setI 0xFFE).i.toNat + 2 ∧ (z.setI 0xFFD).i.toNat + 2 < 4096 ∧ (z.setI 0xFFD).mem.wf = true := by decide
theorem witness_block_accesses :
    4096 ≤ (z.setI 0xFF1).i.toNat + (0xF : Nibble).toNat ∧ (z.setI 0xFF0).i.toNat + (0xF : Nibble).toNat < 4096 ∧
    (z.setI 0xFFF).i.toNat + (0 : Nibble).toNat < 4096 ∧ (z.setI 0xFF0).mem.wf = true := by decide
theorem witness_LoadAfterStore : ∃ t, z.mem.wf = true ∧ z.i.toNat + (2 : Nibble).toNat < 4096 ∧ exec (.ldMemVx 2) z = .next t ∧
    t.i = z.i := ⟨_, by decide, by decide, rfl, rfl⟩
theorem witness_StoredBytesAreFetchedNext :
    ∃ t, (z.setI 0x202).mem.wf = true ∧ (z.setI 0x202).i.toNat + (1 : Nibble).toNat < 4096 ∧ exec (.ldMemVx 1) (z.setI 0x202) = .next t ∧
      (1 : Nibble).toNat = (0 : Nibble).toNat + 1 ∧ (1 : Nibble).toNat ≤ (1 : Nibble).toNat ∧ ((z.setI 0x202).pc + 2).toNat = (z.setI 0x202).i.toNat + (0 : Nibble).toNat :=
  ⟨_, by decide, by decide, rfl, by decide, by decide, by decide⟩
theorem witness_draw_bounds :
    (15 : Nibble) ≠ 0 ∧ 4096 ≤ (z.setI 0xFF2).i.toNat + (15 : Nibble).toNat - 1 ∧
    (z.setI 0xFF1).i.toNat + (15 : Nibble).toNat - 1 < 4096 ∧ (z.setI 0xFFFF).i.toNat + (0 : Nibble).toNat - 1 ≥ 4096 := by decide
theorem witness_draw_touches : SpriteTouches z 0 1 5 3 ∧ Display.lit z.disp 3 = false ∧
    Display.lit (Display.toggle z.disp 3) 3 = true := ⟨⟨0, 3, by decide⟩, by decide, by decide⟩
theorem witness_DrawingTwice : ∃ t w, (0 : Nibble) ≠ 0xF ∧ (1 : Nibble) ≠ 0xF ∧ z.i.toNat + (5 : Nibble).toNat - 1 < 4096 ∧ exec (.drw 0 1 5) z = .next t ∧ exec (.drw 0 1 5) t = .next w ∧ t.i = z.i ∧
    t.reg 0 = z.reg 0 ∧ t.reg 1 = z.reg 1 ∧ t.mem = z.mem :=
  ⟨_, _, by decide, by decide, by decide, rfl, rfl, rfl, by decide, by decide, rfl⟩
theorem witness_KeySkips : 16 ≤ ((z.writeReg 2 16).reg 2).toNat ∧ ((z.writeReg 2 15).reg 2).toNat = (15 : Fin 16).val := by decide
theorem witness_KeyWait : (zKeys [3, 9]).key[(3 : Fin 16)] = true ∧ (∀ j : Fin 16, j < 3 → (zKeys [3, 9]).key[j] = false) ∧
    (∀ k : Fin 16, z.key[k] = false) := by decide
theorem witness_LoadCopiesTheProgram : zHalted.halted ∧ z.running ∧ z.mem.wf = true ∧
    3584 < (List.replicate 3585 (0 : Byte)).length ∧ (List.replicate 3584 (0 : Byte)).length ≤ 3584 := by
  refine ⟨by decide, by decide, by decide, ?_, ?_⟩ <;> rw [List.length_replicate] <;> decide
theorem witness_invariant : StateInv (z.setPc 0x10FE) ∧ StateInv zHalted := by
  unfold StateInv; decide
theorem witness_invariant_steps : ∃ t u, step (z.setPc 0x10FE) = .next t ∧ transactAll [.tick, .step] zHalted = .next u :=
  ⟨_, _, rfl, rfl⟩
theorem witness_writes : z.mem.wf = true ∧ (∃ t, exec (.ldBVx 0) z = .next t) ∧ writes (.ldBVx 0) z (.mem 3) = false ∧
    writes (.ldBVx 0) z (.mem 2) = true := ⟨by decide, ⟨_, rfl⟩, by decide, by decide⟩
theorem witness_readers : (∃ t u v, exec .nop z = .next t ∧ exec (.ldDtVx 1) z = .next u ∧ exec (.ldStVx 1) z = .next v) ∧
    (∀ x, Instr.nop ≠ .skp x ∧ Instr.nop ≠ .sknp x ∧ Instr.nop ≠ .ldVxK x ∧ Instr.nop ≠ .ldVxDt x ∧ Instr.nop ≠ .ldDtVx x ∧
      Instr.nop ≠ .ldStVx x) ∧ ∀ x nn, Instr.nop ≠ .rnd x nn :=
  ⟨⟨_, _, _, rfl, rfl, rfl⟩, fun _ => ⟨nofun, nofun, nofun, nofun, nofun, nofun⟩, fun _ _ => nofun⟩
/-- For the statements about register writes: a destination that is not VF, and a register that is neither; a clear bit of nn. -/
theorem witness_registers : (1 : Nibble) ≠ 0xF ∧ (2 : Nibble) ≠ 1 ∧ (2 : Nibble) ≠ 0xF ∧ (0x0F : Byte).getLsbD 7 = false := by
  decide
theorem witness_TickCountsBothTimersDown : zHalted.halted ∧ z.running ∧ (z.setDt 1).running := by decide

end Sys2Proof.Tests
end

section
/-! The reset values of 10_state.md R51: what the memory that lists nothing reads as, and the state RESET leaves. -/

namespace Sys2Proof.Machine

/-- FONT fills the addresses 0x000..0x04F and no more (10_state.md R52). -/
theorem font_length : Config.font.length = 0x50 := by decide

/-- Above FONT an address that nothing has written reads as zero (10_state.md R50). -/
theorem resetByte_above_font {a : Nat} (ha : 0x50 ≤ a) : resetByte a = 0 :=
  List.getD_eq_default _ _ (font_length.trans_le ha)

/-- RESET leaves the reset values, whatever the state before: the count of free bytes it keeps is none of the spec's fields. -/
theorem restart_atResetValues (s : State) : AtResetValues s.restart := by
  have regs (x : Nibble) : s.restart.reg x = 0 := Vector.getElem_replicate _
  have stack (k : Fin 16) : s.restart.stack[k] = 0 := Vector.getElem_replicate _
  have keys (k : Fin 16) : s.restart.key[k] = false := Vector.getElem_replicate _
  have font (a : Nat) (_ : a < 0x50) : s.restart.mem.read a = Config.font.getD a 0 := rfl
  have above (a : Nat) (ha : 0x50 ≤ a) : s.restart.mem.read a = 0 := resetByte_above_font ha
  exact ⟨regs, rfl, rfl, rfl, stack, rfl, rfl, keys, dark_lit, font, above, rfl⟩

/-- A fresh machine is what RESET makes of it. -/
theorem restart_reset : State.reset.restart = State.reset := rfl

/-- Settles O44: the fresh machine is a restarted one, and RESET leaves the reset values. -/
theorem resetStateHasTheResetValues : Obligations.ResetStateHasTheResetValues := by
  unfold Obligations.ResetStateHasTheResetValues
  rw [← restart_reset]
  exact restart_atResetValues State.reset

end Sys2Proof.Machine
end

section
/-! LOAD, the host's write of a program into memory (20_memory.md R89): its three outcomes, and the memory the program lies in. -/

namespace Sys2Proof.Machine

theorem State.load_halted {s : State} (h : s.halted) (bytes : List Byte) : s.load bytes = s := if_pos h

/-- One byte more than there is room for from 0x200 up is a fault, and like every fault it writes nothing but FAULT. -/
theorem State.load_too_long {s : State} (hr : s.running) {bytes : List Byte} (hl : 3584 < bytes.length) :
    s.load bytes = s.raise .loadOob 0 bytes.length := by
  simp [State.load, hr, hl]

theorem State.load_fits {s : State} (hr : s.running) {bytes : List Byte} (hl : bytes.length ≤ 3584) :
    s.load bytes = s.setMem (s.mem.writeList 0x200 bytes) := by
  simp [State.load, hr, Nat.not_lt.2 hl]

/-- The k-th address of a written block reads as its k-th byte. -/
theorem read_writeList_inside {m : Memory} (h : m.wf = true) {bs : List Byte} {a k : Nat} (ha : a + bs.length ≤ 4096)
    (hk : k < bs.length) : (m.writeList a bs).read (a + k) = bs[k] := by
  rw [read_writeList h bs ha, if_pos ⟨by omega, by omega⟩, Nat.add_sub_cancel_left, List.getD_eq_getElem bs 0 hk]

/-- A block write leaves every address below and above the block as it was. -/
theorem read_writeList_outside {m : Memory} (h : m.wf = true) {bs : List Byte} {a b : Nat} (ha : a + bs.length ≤ 4096)
    (hb : b < a ∨ a + bs.length ≤ b) : (m.writeList a bs).read b = m.read b := by
  rw [read_writeList h bs ha, if_neg (by omega)]

/-- Settles O46: by the three outcomes of LOAD; a program of at most 3584 bytes ends within memory, so the block write's laws apply. -/
theorem loadCopiesTheProgram : Obligations.LoadCopiesTheProgram := by
  unfold Obligations.LoadCopiesTheProgram
  intro bytes s
  refine ⟨fun hh => ?_, fun hr hl => ?_, fun hr hl hm => ?_⟩
  · exact congrArg Host.Outcome.next (State.load_halted hh bytes)
  · exact congrArg Host.Outcome.next (State.load_too_long hr hl)
  · have fits : 0x200 + bytes.length ≤ 4096 := by omega
    exact ⟨s.setMem (s.mem.writeList 0x200 bytes), congrArg Host.Outcome.next (State.load_fits hr hl), rfl,
      fun _ hk => read_writeList_inside hm fits hk, fun _ ha => read_writeList_outside hm fits ha⟩

end Sys2Proof.Machine
end

section
/-! The shifts of family 8: their words decode by d1 and d4 alone (30_encoding.md R106), and the nibble in bits 7:4 selects
nothing (R104). -/

namespace Sys2Proof.Machine

/-- d1 = 8 leaves the rest of decoding to d4 (30_encoding.md R106). -/
theorem decodeWord_family_8 {w : Word} (h : fieldD1 w = 0x8#4) : decodeWord w = decodeAlu w := by
  simp [decodeWord, h]

theorem decodeAlu_d4_6 {w : Word} (h : fieldN w = 0x6#4) : decodeAlu w = .ok (.shr (fieldX w) (fieldY w)) := by
  simp [decodeAlu, h]

theorem decodeAlu_d4_E {w : Word} (h : fieldN w = 0xE#4) : decodeAlu w = .ok (.shl (fieldX w) (fieldY w)) := by
  simp [decodeAlu, h]

theorem decodeWord_8xz6 (x z : Nibble) : decodeWord (0x8#4 ++ x ++ z ++ 0x6#4) = .ok (.shr x z) := by
  obtain ⟨hd1, hx, hz, hd4⟩ := fields_xyn 0x8#4 x z 0x6#4
  rw [decodeWord_family_8 hd1, decodeAlu_d4_6 hd4, hx, hz]

theorem decodeWord_8xzE (x z : Nibble) : decodeWord (0x8#4 ++ x ++ z ++ 0xE#4) = .ok (.shl x z) := by
  obtain ⟨hd1, hx, hz, hd4⟩ := fields_xyn 0x8#4 x z 0xE#4
  rw [decodeWord_family_8 hd1, decodeAlu_d4_E hd4, hx, hz]

/-- The meaning of 8x_6 is a function of x and the state: the nibble of bits 7:4 is not among its arguments. -/
theorem exec_shr (x z : Nibble) (s : State) : exec (.shr x z) s = execShr x s := rfl

/-- The meaning of 8x_E is a function of x and the state: the nibble of bits 7:4 is not among its arguments. -/
theorem exec_shl (x z : Nibble) (s : State) : exec (.shl x z) s = execShl x s := rfl

/-- Settles O7: the word's own nibbles give the shift, and its meaning forgets the middle one. -/
theorem shiftsIgnoreTheMiddleNibble : Obligations.ShiftsIgnoreTheMiddleNibble := by
  unfold Obligations.ShiftsIgnoreTheMiddleNibble
  intro x z z' s
  have shr : exec (.shr x z) s = exec (.shr x z') s := (exec_shr x z s).trans (exec_shr x z' s).symm
  have shl : exec (.shl x z) s = exec (.shl x z') s := (exec_shl x z s).trans (exec_shl x z' s).symm
  exact ⟨decodeWord_8xz6 x z, shr, decodeWord_8xzE x z, shl⟩

end Sys2Proof.Machine
end

section
/-! A step of a running machine whose fetched word does not decode (30_encoding.md R112). -/

namespace Sys2Proof.Machine

/-- A running machine that fetched a word the decoder refuses raises the fault with that word (40_datapath.md R146). -/
theorem step_of_unrecognized {s : State} {w : Word} {e : DecodeError} (hr : s.running) (hf : s.fetchWord = some w)
    (hd : decodeWord w = .error e) : step s = .next (s.raise .illegalOpcode w 0) := by
  simp only [step, hr, hf, hd, Bool.false_eq_true, if_false]

/-- Settles O10: the step raises ILLEGAL_OPCODE, and raising a fault writes FAULT alone, with the word and the PC recorded. -/
theorem unrecognizedOpcodeFaults : Obligations.UnrecognizedOpcodeFaults := by
  unfold Obligations.UnrecognizedOpcodeFaults
  intro s w e hr hf hd
  rw [step_of_unrecognized hr hf hd, State.raise_eq]

end Sys2Proof.Machine
end

section
/-! Fetch at the two ends of its range, and a step of a running machine whose word does not lie in memory (40_datapath.md R147). -/

namespace Sys2Proof.Machine

theorem fetchWord_inside {s : State} (h : s.pc.toNat + 1 < 4096) :
    s.fetchWord = some (wordOfBytes (s.mem.read s.pc.toNat) (s.mem.read (s.pc.toNat + 1))) := by
  rcases fetchWord_cases s with ⟨-, hf⟩ | ⟨hb, -⟩
  · exact hf
  · exact absurd h (Nat.not_lt.2 hb)

theorem fetchWord_beyond {s : State} (h : 4096 ≤ s.pc.toNat + 1) : s.fetchWord = none := by
  rcases fetchWord_cases s with ⟨hi, -⟩ | ⟨-, hf⟩
  · exact absurd hi (Nat.not_lt.2 h)
  · exact hf

/-- A running machine that fetches no word raises FETCH_OOB, with its PC as the information recorded. -/
theorem step_of_no_word {s : State} (hr : s.running) (hf : s.fetchWord = none) :
    step s = .next (s.raise .fetchOob 0 s.pc.toNat) := by
  simp only [step, hr, hf, Bool.false_eq_true, if_false]

/-- Settles O9: inside memory the word is the two bytes, high byte first; beyond it the step raises FETCH_OOB, and raising a fault
writes FAULT alone. -/
theorem fetchIsBigEndianAndBounded : Obligations.FetchIsBigEndianAndBounded := by
  unfold Obligations.FetchIsBigEndianAndBounded
  refine fun s => ⟨fun hpc => ?_, fun hr hpc => ?_⟩
  · exact ⟨_, fetchWord_inside hpc, wordOfBytes_toNat _ _⟩
  · rw [step_of_no_word hr (fetchWord_beyond hpc), State.raise_eq]

end Sys2Proof.Machine
end

section
/-! The transactions in the halted state (40_datapath.md R174); LOAD's own lemma is `State.load_halted`. -/

namespace Sys2Proof.Machine

theorem step_halted {s : State} (h : s.halted) : step s = .next s := if_pos h

theorem State.tick_halted {s : State} (h : s.halted) : s.tick = s := if_pos h

theorem State.setKey_halted {s : State} (h : s.halted) (k : Nibble) (p : Bool) : s.setKey k p = s := if_pos h

/-- Every transaction but RESET leaves a halted state as it is. -/
theorem transact_halted {s : State} (h : s.halted) {t : Transaction} (ht : t ≠ .reset) : transact t s = .next s := by
  cases t with
  | reset => exact absurd rfl ht
  | load bytes => exact congrArg Host.Outcome.next (State.load_halted h bytes)
  | step => exact step_halted h
  | tick => exact congrArg Host.Outcome.next (State.tick_halted h)
  | setKey k p => exact congrArg Host.Outcome.next (State.setKey_halted h k p)
  | readDisplay => rfl
  | readFault => rfl

/-- Settles O15: six of the seven transactions leave the halted state as it is, the reads reply with its fields, and RESET leaves
the reset values from every state. -/
theorem haltedMachineStandsStill : Obligations.HaltedMachineStandsStill := by
  unfold Obligations.HaltedMachineStandsStill
  intro s h
  have read_display : reply .readDisplay s = .display s.disp := rfl
  have read_fault : reply .readFault s = .fault s.fault := rfl
  have restarted : ∃ t, transact .reset s = .next t ∧ AtResetValues t := ⟨s.restart, rfl, restart_atResetValues s⟩
  exact ⟨transact_halted h nofun, transact_halted h nofun, fun _ _ => transact_halted h nofun, fun _ => transact_halted h nofun,
    ⟨transact_halted h nofun, read_display⟩, ⟨transact_halted h nofun, read_fault⟩, restarted⟩

end Sys2Proof.Machine
end

section
/-! The words of the control flow instructions: the family nibble d1 alone, or with d4 = 0 for 5xy0 and 9xy0, selects the
instruction (30_encoding.md R106, R107). -/

namespace Sys2Proof.Machine

theorem decodeWord_family_1 {w : Word} (h : fieldD1 w = 0x1#4) : decodeWord w = .ok (.jp (fieldNNN w)) := by
  simp [decodeWord, h]

theorem decodeWord_family_2 {w : Word} (h : fieldD1 w = 0x2#4) : decodeWord w = .ok (.call (fieldNNN w)) := by
  simp [decodeWord, h]

theorem decodeWord_family_3 {w : Word} (h : fieldD1 w = 0x3#4) : decodeWord w = .ok (.seImm (fieldX w) (fieldNN w)) := by
  simp [decodeWord, h]

theorem decodeWord_family_4 {w : Word} (h : fieldD1 w = 0x4#4) : decodeWord w = .ok (.sneImm (fieldX w) (fieldNN w)) := by
  simp [decodeWord, h]

theorem decodeWord_family_5 {w : Word} (h : fieldD1 w = 0x5#4) (hn : fieldN w = 0x0#4) :
    decodeWord w = .ok (.seReg (fieldX w) (fieldY w)) := by
  simp [decodeWord, h, hn]

theorem decodeWord_family_9 {w : Word} (h : fieldD1 w = 0x9#4) (hn : fieldN w = 0x0#4) :
    decodeWord w = .ok (.se9Reg (fieldX w) (fieldY w)) := by
  simp [decodeWord, h, hn]

theorem decodeWord_family_B {w : Word} (h : fieldD1 w = 0xB#4) : decodeWord w = .ok (.jpV0 (fieldNNN w)) := by
  simp [decodeWord, h]

theorem decodeWord_1nnn (nnn : Addr12) : decodeWord (0x1#4 ++ nnn) = .ok (.jp nnn) := by
  obtain ⟨hd1, hnnn⟩ := fields_nnn 0x1#4 nnn
  rw [decodeWord_family_1 hd1, hnnn]

theorem decodeWord_2nnn (nnn : Addr12) : decodeWord (0x2#4 ++ nnn) = .ok (.call nnn) := by
  obtain ⟨hd1, hnnn⟩ := fields_nnn 0x2#4 nnn
  rw [decodeWord_family_2 hd1, hnnn]

theorem decodeWord_Bnnn (nnn : Addr12) : decodeWord (0xB#4 ++ nnn) = .ok (.jpV0 nnn) := by
  obtain ⟨hd1, hnnn⟩ := fields_nnn 0xB#4 nnn
  rw [decodeWord_family_B hd1, hnnn]

theorem decodeWord_3xnn (x : Nibble) (nn : Byte) : decodeWord (0x3#4 ++ x ++ nn) = .ok (.seImm x nn) := by
  obtain ⟨hd1, hx, hnn⟩ := fields_xnn 0x3#4 x nn
  rw [decodeWord_family_3 hd1, hx, hnn]

theorem decodeWord_4xnn (x : Nibble) (nn : Byte) : decodeWord (0x4#4 ++ x ++ nn) = .ok (.sneImm x nn) := by
  obtain ⟨hd1, hx, hnn⟩ := fields_xnn 0x4#4 x nn
  rw [decodeWord_family_4 hd1, hx, hnn]

theorem decodeWord_5xy0 (x y : Nibble) : decodeWord (0x5#4 ++ x ++ y ++ 0x0#4) = .ok (.seReg x y) := by
  obtain ⟨hd1, hx, hy, hd4⟩ := fields_xyn 0x5#4 x y 0x0#4
  rw [decodeWord_family_5 hd1 hd4, hx, hy]

theorem decodeWord_9xy0 (x y : Nibble) : decodeWord (0x9#4 ++ x ++ y ++ 0x0#4) = .ok (.se9Reg x y) := by
  obtain ⟨hd1, hx, hy, hd4⟩ := fields_xyn 0x9#4 x y 0x0#4
  rw [decodeWord_family_9 hd1 hd4, hx, hy]

end Sys2Proof.Machine
end

section
/-! NOP, and zeroed memory as a run of NOPs up to the end of memory (41_control_flow.md R200). -/

namespace Sys2Proof.Machine

/-- A running machine that fetched a word the decoder knows runs that instruction (40_datapath.md R146). -/
theorem step_of_recognized {s : State} {w : Word} {i : Instr} (hr : s.running) (hf : s.fetchWord = some w)
    (hd : decodeWord w = .ok i) : step s = exec i s := by
  simp only [step, hr, hf, hd, Bool.false_eq_true, if_false]

theorem decodeWord_0000 : decodeWord 0x0000 = .ok .nop := by decide

theorem exec_nop (s : State) : exec .nop s = .next { s with pc := s.pc + 2 } := rfl

/-- Two zero bytes at PC, at an even or an odd address, are fetched as the word 0000. -/
theorem fetchWord_of_zeros {s : State} (hpc : s.pc.toNat ≤ 0xFFE) (hhi : s.mem.read s.pc.toNat = 0)
    (hlo : s.mem.read (s.pc.toNat + 1) = 0) : s.fetchWord = some 0x0000 := by
  have inside : s.pc.toNat + 1 < 4096 := by omega
  rw [fetchWord_inside inside, hhi, hlo]
  rfl

/-- Settles O18: zero bytes inside memory are the word of NOP, which the step then runs; at 0x1000 there is no word to fetch. -/
theorem nopOnlyAdvances : Obligations.NopOnlyAdvances := by
  unfold Obligations.NopOnlyAdvances
  refine ⟨decodeWord_0000, exec_nop, fun s hr hpc hhi hlo => ?_, fun s hr hpc => ?_⟩
  · rw [step_of_recognized hr (fetchWord_of_zeros hpc hhi hlo) decodeWord_0000, exec_nop]
  · have beyond : 4096 ≤ s.pc.toNat + 1 := by simp [hpc]
    rw [step_of_no_word hr (fetchWord_beyond beyond), State.raise_eq, hpc]
    rfl

end Sys2Proof.Machine
end

section
/-! CALL and RET: each either moves the return stack by one and jumps, or faults at the stack's end (41_control_flow.md R201,
R203). -/

namespace Sys2Proof.Machine

theorem decodeWord_00EE : decodeWord 0x00EE = .ok .ret := by decide

theorem exec_ret_of_empty {s : State} (h : s.sp.val = 0) :
    exec .ret s = .next (s.raise .stackUnderflow 0x00EE 0) := by
  rcases pop_cases s with ⟨h', -⟩ | ⟨-, hpop⟩
  · exact absurd h h'
  · simp only [exec, execRet, hpop, encode]

theorem exec_ret_of_nonempty {s : State} (h : s.sp.val ≠ 0) :
    exec .ret s = .next { s with sp := ⟨s.sp.val - 1, by omega⟩, pc := s.stack[s.sp.val - 1]'(by omega) } := by
  rcases pop_cases s with ⟨-, hpop⟩ | ⟨h', -⟩
  · simp only [exec, execRet, hpop, finish_eq, State.pcMux]
  · exact absurd h' h

/-- Settles O19: by the two outcomes of RET. -/
theorem retPopsIntoPc : Obligations.RetPopsIntoPc := by
  unfold Obligations.RetPopsIntoPc
  refine ⟨decodeWord_00EE, fun s => ⟨fun h => ?_, fun h => ?_⟩⟩
  · rw [exec_ret_of_empty h, State.raise_eq]
  · exact ⟨_, exec_ret_of_nonempty h, rfl, Nat.sub_one_add_one h, Vector.getElem?_eq_getElem _⟩

theorem exec_call_of_full {s : State} (h : s.sp.val = 16) (nnn : Addr12) :
    exec (.call nnn) s = .next (s.raise .stackOverflow (0x2#4 ++ nnn) 0) := by
  rcases push_cases s s.advancedPc with ⟨h', -⟩ | ⟨-, hpush⟩
  · omega
  · simp only [exec, execCall, hpush, encode]

theorem exec_call_of_room {s : State} (h : s.sp.val < 16) (nnn : Addr12) :
    exec (.call nnn) s = .next { s with
      stack := s.stack.set s.sp.val (s.pc + 2) h, sp := ⟨s.sp.val + 1, by omega⟩, pc := nnn.setWidth 16 } := by
  rcases push_cases s (s.pc + 2) with ⟨_, hpush⟩ | ⟨h', -⟩
  · simp only [exec, execCall, State.advancedPc, hpush, finish_eq, State.pcMux]
  · omega

/-- A 12-bit address keeps its value in the 16 bits of PC. -/
theorem setWidth_addr_toNat (nnn : Addr12) : (nnn.setWidth 16).toNat = nnn.toNat :=
  BitVec.toNat_setWidth_of_le (by decide)

/-- Settles O21: by the two outcomes of CALL; a push writes the slot SP names and no other. -/
theorem callPushesTheNextAddress : Obligations.CallPushesTheNextAddress := by
  unfold Obligations.CallPushesTheNextAddress
  refine fun nnn => ⟨decodeWord_2nnn nnn, fun s => ⟨fun h => ?_, fun h => ?_⟩⟩
  · rw [exec_call_of_full h, State.raise_eq]
  · refine ⟨_, exec_call_of_room h nnn, rfl, rfl, setWidth_addr_toNat nnn, fun k => ?_⟩
    simp only [Fin.getElem_fin, Vector.getElem_set, eq_comm]

end Sys2Proof.Machine
end

section
/-! The two jumps, to nnn and to nnn plus V0 (41_control_flow.md R202, R209). -/

namespace Sys2Proof.Machine

theorem exec_jp (nnn : Addr12) (s : State) : exec (.jp nnn) s = .next { s with pc := nnn.setWidth 16 } := rfl

/-- Settles O20: the target is the address itself, widened. -/
theorem jumpGoesToTheAddress : Obligations.JumpGoesToTheAddress := by
  unfold Obligations.JumpGoesToTheAddress
  exact fun nnn => ⟨decodeWord_1nnn nnn, fun s => ⟨_, exec_jp nnn s, rfl, setWidth_addr_toNat nnn⟩⟩

theorem exec_jpV0 (nnn : Addr12) (s : State) :
    exec (.jpV0 nnn) s = .next { s with pc := nnn.setWidth 16 + (s.reg 0).setWidth 16 } := rfl

/-- A 12-bit address plus a byte fits in the 16 bits of PC: at most 0xFFF + 0xFF (41_control_flow.md R209). -/
theorem addr_add_byte_toNat (nnn : Addr12) (b : Byte) :
    (nnn.setWidth 16 + b.setWidth 16).toNat = nnn.toNat + b.toNat := by
  have hb : (b.setWidth 16).toNat = b.toNat := BitVec.toNat_setWidth_of_le (by decide)
  have fits : nnn.toNat + b.toNat < 2 ^ 16 := by omega
  rw [BitVec.toNat_add, setWidth_addr_toNat, hb, Nat.mod_eq_of_lt fits]

/-- Settles O25: the 16-bit sum of the target does not wrap. -/
theorem jumpV0AddsV0 : Obligations.JumpV0AddsV0 := by
  unfold Obligations.JumpV0AddsV0
  exact fun nnn => ⟨decodeWord_Bnnn nnn, fun s => ⟨_, exec_jpV0 nnn s, rfl, addr_add_byte_toNat nnn (s.reg 0)⟩⟩

end Sys2Proof.Machine
end

section
/-! The skips on registers: one comparator bit chooses between PC + 4 and PC + 2 (41_control_flow.md R204 to R208). -/

namespace Sys2Proof.Machine

/-- A skip whose comparator bit tells whether `p` holds moves PC by 4 when it does, else by 2, and nothing else. -/
theorem skipStep_of_iff {c : Bool} {p : Prop} [Decidable p] (h : c = true ↔ p) (s : State) :
    s.skipStep c = { s with pc := if p then s.pc + 4 else s.pc + 2 } := by
  simp only [← h]
  cases c <;> rfl

theorem exec_seImm (x : Nibble) (nn : Byte) (s : State) :
    exec (.seImm x nn) s = .next { s with pc := if s.reg x = nn then s.pc + 4 else s.pc + 2 } :=
  congrArg Host.Outcome.next (skipStep_of_iff beq_iff_eq s)

theorem exec_sneImm (x : Nibble) (nn : Byte) (s : State) :
    exec (.sneImm x nn) s = .next { s with pc := if s.reg x ≠ nn then s.pc + 4 else s.pc + 2 } :=
  congrArg Host.Outcome.next (skipStep_of_iff bne_iff_ne s)

theorem exec_seReg (x y : Nibble) (s : State) :
    exec (.seReg x y) s = .next { s with pc := if s.reg x = s.reg y then s.pc + 4 else s.pc + 2 } :=
  congrArg Host.Outcome.next (skipStep_of_iff beq_iff_eq s)

/-- Settles O23: each word decodes by its fields, and each comparator bit tells its condition. -/
theorem skipsCompareRegisters : Obligations.SkipsCompareRegisters := by
  unfold Obligations.SkipsCompareRegisters
  exact ⟨fun x nn => ⟨decodeWord_3xnn x nn, exec_seImm x nn⟩, fun x nn => ⟨decodeWord_4xnn x nn, exec_sneImm x nn⟩,
    fun x y => ⟨decodeWord_5xy0 x y, exec_seReg x y⟩⟩

/-- SKIP9_ON_EQUAL = true makes 9xy0's comparator that of 5xy0 (41_control_flow.md R208, log entry 5). -/
theorem skip9Condition_eq (a b : Byte) : skip9Condition a b = (a == b) := if_pos rfl

theorem exec_se9Reg (x y : Nibble) (s : State) : exec (.se9Reg x y) s = exec (.seReg x y) s := by
  simp only [exec, execSe9Reg, execSeReg, skip9Condition_eq]

/-- Settles O24: 9xy0 has the effect of 5xy0, which skips on equality. -/
theorem nineSkipsOnEquality : Obligations.NineSkipsOnEquality := by
  unfold Obligations.NineSkipsOnEquality
  refine fun x y => ⟨decodeWord_9xy0 x y, fun s => ⟨?_, exec_se9Reg x y s⟩⟩
  rw [exec_se9Reg, exec_seReg]

end Sys2Proof.Machine
end

section
/-! The words of the ALU instructions: d1 alone selects 6xnn and 7xnn, d4 the rest inside family 8 (30_encoding.md R106, R107). -/

namespace Sys2Proof.Machine

theorem decodeWord_family_6 {w : Word} (h : fieldD1 w = 0x6#4) : decodeWord w = .ok (.ldImm (fieldX w) (fieldNN w)) := by
  simp [decodeWord, h]

theorem decodeWord_family_7 {w : Word} (h : fieldD1 w = 0x7#4) : decodeWord w = .ok (.addImm (fieldX w) (fieldNN w)) := by
  simp [decodeWord, h]

theorem decodeWord_6xnn (x : Nibble) (nn : Byte) : decodeWord (0x6#4 ++ x ++ nn) = .ok (.ldImm x nn) := by
  obtain ⟨hd1, hx, hnn⟩ := fields_xnn 0x6#4 x nn
  rw [decodeWord_family_6 hd1, hx, hnn]

theorem decodeWord_7xnn (x : Nibble) (nn : Byte) : decodeWord (0x7#4 ++ x ++ nn) = .ok (.addImm x nn) := by
  obtain ⟨hd1, hx, hnn⟩ := fields_xnn 0x7#4 x nn
  rw [decodeWord_family_7 hd1, hx, hnn]

/-- A nibble d4 that selects the form `form` in family 8 gives that form the nibbles x and y the word is built from. -/
theorem decodeWord_8xyn {form : Nibble → Nibble → Instr} {n : Nibble}
    (h : ∀ w, fieldN w = n → decodeAlu w = .ok (form (fieldX w) (fieldY w))) (x y : Nibble) :
    decodeWord (0x8#4 ++ x ++ y ++ n) = .ok (form x y) := by
  obtain ⟨hd1, hx, hy, hd4⟩ := fields_xyn 0x8#4 x y n
  rw [decodeWord_family_8 hd1, h _ hd4, hx, hy]

theorem decodeWord_8xy0 (x y : Nibble) : decodeWord (0x8#4 ++ x ++ y ++ 0x0#4) = .ok (.ldReg x y) :=
  decodeWord_8xyn (fun w h => by simp [decodeAlu, h]) x y

theorem decodeWord_8xy1 (x y : Nibble) : decodeWord (0x8#4 ++ x ++ y ++ 0x1#4) = .ok (.or x y) :=
  decodeWord_8xyn (fun w h => by simp [decodeAlu, h]) x y

theorem decodeWord_8xy2 (x y : Nibble) : decodeWord (0x8#4 ++ x ++ y ++ 0x2#4) = .ok (.and x y) :=
  decodeWord_8xyn (fun w h => by simp [decodeAlu, h]) x y

theorem decodeWord_8xy3 (x y : Nibble) : decodeWord (0x8#4 ++ x ++ y ++ 0x3#4) = .ok (.xor x y) :=
  decodeWord_8xyn (fun w h => by simp [decodeAlu, h]) x y

theorem decodeWord_8xy4 (x y : Nibble) : decodeWord (0x8#4 ++ x ++ y ++ 0x4#4) = .ok (.addReg x y) :=
  decodeWord_8xyn (fun w h => by simp [decodeAlu, h]) x y

theorem decodeWord_8xy5 (x y : Nibble) : decodeWord (0x8#4 ++ x ++ y ++ 0x5#4) = .ok (.sub x y) :=
  decodeWord_8xyn (fun w h => by simp [decodeAlu, h]) x y

theorem decodeWord_8xy7 (x y : Nibble) : decodeWord (0x8#4 ++ x ++ y ++ 0x7#4) = .ok (.subn x y) :=
  decodeWord_8xyn (fun w h => by simp [decodeAlu, h]) x y

end Sys2Proof.Machine
end

section
/-! The ALU instructions as ALU steps on their operands, and what a step of each kind leaves: without a flag it writes Vx and PC,
with one also VF, last (40_datapath.md R151, R170). -/

namespace Sys2Proof.Machine

theorem exec_ldImm (x : Nibble) (nn : Byte) (s : State) : exec (.ldImm x nn) s = .next (s.aluStep .passB x 0 nn) := rfl

theorem exec_addImm (x : Nibble) (nn : Byte) (s : State) :
    exec (.addImm x nn) s = .next (s.aluStep .addNf x (s.reg x) nn) := rfl

theorem exec_ldReg (x y : Nibble) (s : State) : exec (.ldReg x y) s = .next (s.aluStep .passB x 0 (s.reg y)) := rfl

theorem exec_or (x y : Nibble) (s : State) : exec (.or x y) s = .next (s.aluStep .or x (s.reg x) (s.reg y)) := rfl

theorem exec_and (x y : Nibble) (s : State) : exec (.and x y) s = .next (s.aluStep .and x (s.reg x) (s.reg y)) := rfl

theorem exec_xor (x y : Nibble) (s : State) : exec (.xor x y) s = .next (s.aluStep .xor x (s.reg x) (s.reg y)) := rfl

theorem exec_addReg (x y : Nibble) (s : State) : exec (.addReg x y) s = .next (s.aluStep .add x (s.reg x) (s.reg y)) := rfl

theorem exec_sub (x y : Nibble) (s : State) : exec (.sub x y) s = .next (s.aluStep .sub x (s.reg x) (s.reg y)) := rfl

theorem exec_subn (x y : Nibble) (s : State) : exec (.subn x y) s = .next (s.aluStep .subr x (s.reg x) (s.reg y)) := rfl

theorem exec_shr_aluStep (x z : Nibble) (s : State) : exec (.shr x z) s = .next (s.aluStep .shr x (s.reg x) 0) := rfl

theorem exec_shl_aluStep (x z : Nibble) (s : State) : exec (.shl x z) s = .next (s.aluStep .shl x (s.reg x) 0) := rfl

/-- An operation without a flag leaves every register but the destination, VF included. -/
theorem aluStep_reg_of_no_flag {op : AluOp} {a b : Byte} (h : aluFlag op a b = none) (s : State) (x r : Nibble) :
    (s.aluStep op x a b).reg r = if r = x then aluResult op a b else s.reg r := by
  simp only [aluStep_reg, h]

/-- The flag is written last, so VF holds it even where VF is the destination. -/
theorem aluStep_reg_of_flag {op : AluOp} {a b : Byte} {f : Bool} (h : aluFlag op a b = some f) (s : State) (x r : Nibble) :
    (s.aluStep op x a b).reg r = if r = 0xF then flagByte f else if r = x then aluResult op a b else s.reg r := by
  simp only [aluStep_reg, h]

/-- A whole step without a flag: the frame, the destination, the other registers. -/
theorem aluStep_of_no_flag (s : State) (op : AluOp) (x : Nibble) (a b : Byte) (h : aluFlag op a b = none) :
    s.aluStep op x a b = { s with v := (s.aluStep op x a b).v, pc := s.pc + 2 } ∧
      (s.aluStep op x a b).reg x = aluResult op a b ∧ ∀ r, r ≠ x → (s.aluStep op x a b).reg r = s.reg r := by
  refine ⟨aluStep_frame s op x a b, ?_, fun r hr => ?_⟩
  · rw [aluStep_reg_of_no_flag h, if_pos rfl]
  · rw [aluStep_reg_of_no_flag h, if_neg hr]

/-- A whole step with the flag `f`: the frame, VF, the destination unless it is VF, the other registers. -/
theorem aluStep_of_flag (s : State) (op : AluOp) (x : Nibble) (a b : Byte) {f : Bool} (h : aluFlag op a b = some f) :
    s.aluStep op x a b = { s with v := (s.aluStep op x a b).v, pc := s.pc + 2 } ∧
      (s.aluStep op x a b).reg 0xF = flagByte f ∧ (x ≠ 0xF → (s.aluStep op x a b).reg x = aluResult op a b) ∧
      ∀ r, r ≠ x → r ≠ 0xF → (s.aluStep op x a b).reg r = s.reg r := by
  refine ⟨aluStep_frame s op x a b, ?_, fun hx => ?_, fun r hr hF => ?_⟩
  · rw [aluStep_reg_of_flag h, if_pos rfl]
  · rw [aluStep_reg_of_flag h, if_neg hx, if_pos rfl]
  · rw [aluStep_reg_of_flag h, if_neg hF, if_neg hr]

end Sys2Proof.Machine
end

section
/-! The ALU instructions without a flag: loads, the immediate add, the bitwise operations (42_alu.md R230 to R235). -/

namespace Sys2Proof.Machine

/-- Settles O26: none of the three operations gives a flag, and each writes its result to Vx. -/
theorem loadsAndImmediateAdd : Obligations.LoadsAndImmediateAdd := by
  unfold Obligations.LoadsAndImmediateAdd
  refine ⟨fun x nn => ⟨decodeWord_6xnn x nn, fun s => ?ldImm⟩, fun x nn => ⟨decodeWord_7xnn x nn, fun s => ?addImm⟩,
    fun x y => ⟨decodeWord_8xy0 x y, fun s => ?ldReg⟩⟩
  case ldImm => exact ⟨_, exec_ldImm x nn s, aluStep_frame .., aluStep_reg_of_no_flag rfl s x⟩
  case addImm =>
    obtain ⟨frame, dest, others⟩ := aluStep_of_no_flag s .addNf x (s.reg x) nn rfl
    exact ⟨_, exec_addImm x nn s, frame, by rw [dest]; exact BitVec.toNat_add .., others⟩
  case ldReg => exact ⟨_, exec_ldReg x y s, aluStep_frame .., aluStep_reg_of_no_flag rfl s x⟩

/-- Settles O27: the ALU's three operations act bit by bit and give no flag. -/
theorem bitwiseOperations : Obligations.BitwiseOperations := by
  unfold Obligations.BitwiseOperations
  refine ⟨fun x y => ⟨decodeWord_8xy1 x y, fun s => ?or⟩, fun x y => ⟨decodeWord_8xy2 x y, fun s => ?and⟩,
    fun x y => ⟨decodeWord_8xy3 x y, fun s => ?xor⟩⟩
  case or =>
    obtain ⟨frame, dest, others⟩ := aluStep_of_no_flag s .or x (s.reg x) (s.reg y) rfl
    exact ⟨_, exec_or x y s, frame, fun k => by rw [dest]; exact BitVec.getLsbD_or, others⟩
  case and =>
    obtain ⟨frame, dest, others⟩ := aluStep_of_no_flag s .and x (s.reg x) (s.reg y) rfl
    exact ⟨_, exec_and x y s, frame, fun k => by rw [dest]; exact BitVec.getLsbD_and, others⟩
  case xor =>
    obtain ⟨frame, dest, others⟩ := aluStep_of_no_flag s .xor x (s.reg x) (s.reg y) rfl
    exact ⟨_, exec_xor x y s, frame, fun k => by rw [dest]; exact BitVec.getLsbD_xor, others⟩

end Sys2Proof.Machine
end

section
/-! Addition with carry and the two subtractions: their flags and results as arithmetic, then the instructions
(42_alu.md R236, R237, R239). -/

namespace Sys2Proof.Machine

theorem flagByte_carryFlag (a b : Byte) : flagByte (carryFlag a b) = if a.toNat + b.toNat ≥ 256 then 1 else 0 := by
  simp only [flagByte, carryFlag, decide_eq_true_eq]

theorem flagByte_notBorrowFlag (a b : Byte) : flagByte (notBorrowFlag a b) = if a.toNat < b.toNat then 0 else 1 := by
  simp only [flagByte, notBorrowFlag, Bool.not_eq_true', decide_eq_false_iff_not, ite_not]

/-- The difference of two bytes is the integers' difference mod 256. -/
theorem toNat_sub_byte (a b : Byte) : ((a - b).toNat : Int) = (a.toNat - b.toNat : Int) % 256 := by
  have ha : a.toNat < 256 := a.isLt
  have hb : b.toNat < 256 := b.isLt
  rw [BitVec.toNat_sub]
  omega

/-- Settles O28: the ALU adds mod 256 and its flag is the carry. -/
theorem addGivesSumAndCarry : Obligations.AddGivesSumAndCarry := by
  unfold Obligations.AddGivesSumAndCarry
  refine fun x y => ⟨decodeWord_8xy4 x y, fun s => ?_⟩
  obtain ⟨frame, flag, dest, others⟩ := aluStep_of_flag s .add x (s.reg x) (s.reg y) rfl
  exact ⟨_, exec_addReg x y s, frame, flag.trans (flagByte_carryFlag ..),
    fun hx => by rw [dest hx]; exact BitVec.toNat_add .., others⟩

/-- Settles O29: both subtractions subtract mod 256, and each flag is the not-borrow of its own difference. -/
theorem subtractGivesDifferenceAndNotBorrow : Obligations.SubtractGivesDifferenceAndNotBorrow := by
  unfold Obligations.SubtractGivesDifferenceAndNotBorrow
  refine ⟨fun x y => ⟨decodeWord_8xy5 x y, fun s => ?sub⟩, fun x y => ⟨decodeWord_8xy7 x y, fun s => ?subn⟩⟩
  case sub =>
    obtain ⟨frame, flag, dest, others⟩ := aluStep_of_flag s .sub x (s.reg x) (s.reg y) rfl
    exact ⟨_, exec_sub x y s, frame, flag.trans (flagByte_notBorrowFlag ..),
      fun hx => by rw [dest hx]; exact toNat_sub_byte .., others⟩
  case subn =>
    obtain ⟨frame, flag, dest, others⟩ := aluStep_of_flag s .subr x (s.reg x) (s.reg y) rfl
    exact ⟨_, exec_subn x y s, frame, flag.trans (flagByte_notBorrowFlag ..),
      fun hx => by rw [dest hx]; exact toNat_sub_byte .., others⟩

end Sys2Proof.Machine
end

section
/-! The shifts: the bit shifted out is a remainder or a quotient of the old Vx (42_alu.md R238, R240). -/

namespace Sys2Proof.Machine

theorem flagByte_toNat (f : Bool) : (flagByte f).toNat = f.toNat := by
  cases f <;> rfl

theorem flagByte_shrFlag_toNat (a : Byte) : (flagByte (shrFlag a)).toNat = a.toNat % 2 := by
  rw [flagByte_toNat, shrFlag, BitVec.getLsbD, Nat.toNat_testBit, pow_zero, Nat.div_one]

theorem flagByte_shlFlag_toNat (a : Byte) : (flagByte (shlFlag a)).toNat = a.toNat / 128 := by
  have ha : a.toNat < 256 := a.isLt
  rw [flagByte_toNat, shlFlag, BitVec.getLsbD, Nat.toNat_testBit]
  omega

theorem toNat_shr_byte (a : Byte) : (a >>> 1).toNat = a.toNat / 2 := by
  rw [BitVec.toNat_ushiftRight, Nat.shiftRight_one]

theorem toNat_shl_byte (a : Byte) : (a <<< 1).toNat = a.toNat * 2 % 256 := by
  rw [BitVec.toNat_shiftLeft, Nat.shiftLeft_eq, pow_one]

/-- Settles O30: each shift halves or doubles Vx mod 256, its flag is the bit shifted out, and the middle nibble is no operand. -/
theorem shiftsGiveTheBitShiftedOut : Obligations.ShiftsGiveTheBitShiftedOut := by
  unfold Obligations.ShiftsGiveTheBitShiftedOut
  refine ⟨fun x z => ⟨decodeWord_8xz6 x z, fun s => ?shr⟩, fun x z => ⟨decodeWord_8xzE x z, fun s => ?shl⟩⟩
  case shr =>
    obtain ⟨frame, flag, dest, others⟩ := aluStep_of_flag s .shr x (s.reg x) 0 rfl
    exact ⟨_, exec_shr_aluStep x z s, frame, by rw [flag, flagByte_shrFlag_toNat],
      fun hx => by rw [dest hx]; exact toNat_shr_byte .., others⟩
  case shl =>
    obtain ⟨frame, flag, dest, others⟩ := aluStep_of_flag s .shl x (s.reg x) 0 rfl
    exact ⟨_, exec_shl_aluStep x z s, frame, by rw [flag, flagByte_shlFlag_toNat],
      fun hx => by rw [dest hx]; exact toNat_shl_byte .., others⟩

end Sys2Proof.Machine
end

section
/-! The words of the index and memory instructions: d1 alone selects Annn, the low byte the rest inside family F
(30_encoding.md R106, R107). -/

namespace Sys2Proof.Machine

theorem decodeWord_family_A {w : Word} (h : fieldD1 w = 0xA#4) : decodeWord w = .ok (.ldI (fieldNNN w)) := by
  simp [decodeWord, h]

/-- d1 = F leaves the rest of decoding to the low byte (30_encoding.md R106). -/
theorem decodeWord_family_F {w : Word} (h : fieldD1 w = 0xF#4) : decodeWord w = decodeMisc w := by
  simp [decodeWord, h]

theorem decodeWord_Annn (nnn : Addr12) : decodeWord (0xA#4 ++ nnn) = .ok (.ldI nnn) := by
  obtain ⟨hd1, hnnn⟩ := fields_nnn 0xA#4 nnn
  rw [decodeWord_family_A hd1, hnnn]

/-- A low byte that selects the form `form` in family F gives that form the nibble x the word is built from. -/
theorem decodeWord_Fxkk {form : Nibble → Instr} {kk : Byte}
    (h : ∀ w, fieldNN w = kk → decodeMisc w = .ok (form (fieldX w))) (x : Nibble) :
    decodeWord (0xF#4 ++ x ++ kk) = .ok (form x) := by
  obtain ⟨hd1, hx, hkk⟩ := fields_xnn 0xF#4 x kk
  rw [decodeWord_family_F hd1, h _ hkk, hx]

theorem decodeWord_Fx1E (x : Nibble) : decodeWord (0xF#4 ++ x ++ 0x1E#8) = .ok (.addIVx x) :=
  decodeWord_Fxkk (fun w h => by simp [decodeMisc, h]) x

theorem decodeWord_Fx29 (x : Nibble) : decodeWord (0xF#4 ++ x ++ 0x29#8) = .ok (.ldFVx x) :=
  decodeWord_Fxkk (fun w h => by simp [decodeMisc, h]) x

theorem decodeWord_Fx33 (x : Nibble) : decodeWord (0xF#4 ++ x ++ 0x33#8) = .ok (.ldBVx x) :=
  decodeWord_Fxkk (fun w h => by simp [decodeMisc, h]) x

theorem decodeWord_Fx55 (x : Nibble) : decodeWord (0xF#4 ++ x ++ 0x55#8) = .ok (.ldMemVx x) :=
  decodeWord_Fxkk (fun w h => by simp [decodeMisc, h]) x

theorem decodeWord_Fx65 (x : Nibble) : decodeWord (0xF#4 ++ x ++ 0x65#8) = .ok (.ldVxMem x) :=
  decodeWord_Fxkk (fun w h => by simp [decodeMisc, h]) x

end Sys2Proof.Machine
end

section
/-! The instructions that write I: each sets it to the result of one unit, read as a number (43_index_memory.md R270 to R272). -/

namespace Sys2Proof.Machine

theorem exec_ldI (nnn : Addr12) (s : State) :
    exec (.ldI nnn) s = .next { s with i := nnn.setWidth 16, pc := s.pc + 2 } := rfl

theorem exec_addIVx (x : Nibble) (s : State) :
    exec (.addIVx x) s = .next { s with i := addIndex s.i (s.reg x), pc := s.pc + 2 } := rfl

theorem exec_ldFVx (x : Nibble) (s : State) :
    exec (.ldFVx x) s = .next { s with i := glyphAddress (s.reg x), pc := s.pc + 2 } := rfl

theorem addIndex_toNat (i : Word) (b : Byte) : (addIndex i b).toNat = (i.toNat + b.toNat) % 65536 := by
  have hb : (b.setWidth 16).toNat = b.toNat := BitVec.toNat_setWidth_of_le (by decide)
  rw [addIndex, BitVec.toNat_add, hb]

/-- Five times a byte is at most 1275, so the 16 bits of I hold it exactly. -/
theorem glyphAddress_toNat (b : Byte) : (glyphAddress b).toNat = b.toNat * 5 := by
  have fits : b.toNat * 5 < 2 ^ 16 := by omega
  rw [glyphAddress, BitVec.toNat_ofNat, Nat.mod_eq_of_lt fits]

/-- Settles O31: each of the three writes its unit's result to I and moves PC by 2. -/
theorem indexRegisterWrites : Obligations.IndexRegisterWrites := by
  unfold Obligations.IndexRegisterWrites
  exact ⟨fun nnn => ⟨decodeWord_Annn nnn, fun s => ⟨_, exec_ldI nnn s, rfl, setWidth_addr_toNat nnn⟩⟩,
    fun x => ⟨decodeWord_Fx1E x, fun s => ⟨_, exec_addIVx x s, rfl, addIndex_toNat s.i (s.reg x)⟩⟩,
    fun x => ⟨decodeWord_Fx29 x, fun s => ⟨_, exec_ldFVx x s, rfl, glyphAddress_toNat (s.reg x)⟩⟩⟩

end Sys2Proof.Machine
end

section
/-! A block access at I with its last byte inside memory, and one with its last byte beyond: all or nothing (20_memory.md R76 to
R78). -/

namespace Sys2Proof.Machine

theorem readBlock_inside {s : State} {n : Nat} (h : s.i.toNat + n ≤ 4096) :
    s.readBlock n = some (s.mem.readList s.i.toNat n) := by
  obtain ⟨-, read⟩ | ⟨-, beyond, -⟩ := readBlock_cases s n
  · exact read
  · omega

theorem readBlock_beyond {s : State} {n : Nat} (hn : n ≠ 0) (h : 4096 < s.i.toNat + n) : s.readBlock n = none := by
  obtain ⟨inside, -⟩ | ⟨-, -, fails⟩ := readBlock_cases s n
  · omega
  · exact fails

theorem writeBlock_inside {s : State} {bs : List Byte} (h : s.i.toNat + bs.length ≤ 4096) :
    s.writeBlock bs = some { s with mem := s.mem.writeList s.i.toNat bs } := by
  obtain ⟨-, written⟩ | ⟨-, beyond, -⟩ := writeBlock_cases s bs
  · exact written
  · omega

theorem writeBlock_beyond {s : State} {bs : List Byte} (hn : bs.length ≠ 0) (h : 4096 < s.i.toNat + bs.length) :
    s.writeBlock bs = none := by
  obtain ⟨inside, -⟩ | ⟨-, -, fails⟩ := writeBlock_cases s bs
  · omega
  · exact fails

theorem State.raiseMemOob_eq (s : State) (w : Word) :
    s.raiseMemOob w = { s with fault := ⟨true, .memOob, s.pc, w, max s.i.toNat 4096⟩ } := rfl

end Sys2Proof.Machine
end

section
/-! Fx33: the three decimal digits of Vx to MEM[I..I+2] (43_index_memory.md R273). -/

namespace Sys2Proof.Machine

theorem exec_ldBVx_inside {s : State} (h : s.i.toNat + 2 < 4096) (x : Nibble) :
    exec (.ldBVx x) s =
      .next { s with mem := s.mem.writeList s.i.toNat (bcdDigits (s.reg x)), pc := s.pc + 2 } := by
  have written := writeBlock_inside (s := s) (bs := bcdDigits (s.reg x)) h
  simp only [exec, execLdBVx, State.portA, written, finish_eq, State.pcMux]

theorem exec_ldBVx_beyond {s : State} (h : 4096 ≤ s.i.toNat + 2) (x : Nibble) :
    exec (.ldBVx x) s = .next (s.raiseMemOob (0xF#4 ++ x ++ 0x33#8)) := by
  have fails := writeBlock_beyond (s := s) (bs := bcdDigits (s.reg x)) (Nat.succ_ne_zero 2) (Nat.lt_succ_of_le h)
  simp only [exec, execLdBVx, State.portA, fails, encode]

/-- No digit is 10 or more, so a byte holds each of them exactly. -/
theorem bcdDigits_toNat (b : Byte) : ∃ hundreds tens ones : Byte, bcdDigits b = [hundreds, tens, ones] ∧
    hundreds.toNat = b.toNat / 100 ∧ tens.toNat = b.toNat / 10 % 10 ∧ ones.toNat = b.toNat % 10 := by
  have exact_of_lt {n : Nat} (h : n < 256) : (BitVec.ofNat 8 n).toNat = n :=
    (BitVec.toNat_ofNat ..).trans (Nat.mod_eq_of_lt h)
  exact ⟨_, _, _, rfl, exact_of_lt (by omega), exact_of_lt (by omega), exact_of_lt (by omega)⟩

/-- Settles O32: a block of three bytes, the digits of Vx, goes to I; it ends beyond memory when I + 2 does. -/
theorem bcdStoresThreeDigits : Obligations.BcdStoresThreeDigits := by
  unfold Obligations.BcdStoresThreeDigits
  refine fun x => ⟨decodeWord_Fx33 x, fun s => ⟨fun h => ?beyond, fun h hm => ?inside⟩⟩
  case beyond => rw [exec_ldBVx_beyond h, State.raiseMemOob_eq]
  case inside =>
    obtain ⟨hundreds, tens, ones, digits, hhundreds, htens, hones⟩ := bcdDigits_toNat (s.reg x)
    have fits : s.i.toNat + [hundreds, tens, ones].length ≤ 4096 := h
    have stored {k : Nat} (hk : k < 3) := read_writeList_inside hm fits hk
    refine ⟨_, exec_ldBVx_inside h x, rfl, ?_⟩
    simp only [digits]
    exact ⟨(congrArg BitVec.toNat (stored (k := 0) (by decide))).trans hhundreds,
      (congrArg BitVec.toNat (stored (k := 1) (by decide))).trans htens,
      (congrArg BitVec.toNat (stored (k := 2) (by decide))).trans hones, fun a ha => read_writeList_outside hm fits ha⟩

end Sys2Proof.Machine
end

section
/-! Fx55: V0..Vx to MEM[I..I+x] (43_index_memory.md R274). -/

namespace Sys2Proof.Machine

/-- The k-th byte of the block of registers is Vk. -/
theorem regBlock_getElem {s : State} {x k : Nibble} (h : k.toNat < (s.regBlock x).length) :
    (s.regBlock x)[k.toNat] = s.reg k := by
  rw [← List.getD_eq_getElem _ 0 h, regBlock_getD s x k.toNat (by rw [regBlock_length] at h; omega), BitVec.ofNat_toNat,
    BitVec.setWidth_eq]

theorem exec_ldMemVx_inside {s : State} {x : Nibble} (h : s.i.toNat + x.toNat < 4096) :
    exec (.ldMemVx x) s = .next { s with mem := s.mem.writeList s.i.toNat (s.regBlock x), pc := s.pc + 2 } := by
  have written := writeBlock_inside (s := s) (bs := s.regBlock x) (by rw [regBlock_length]; exact h)
  simp only [exec, execLdMemVx, written, finish_eq, State.pcMux]

theorem exec_ldMemVx_beyond {s : State} {x : Nibble} (h : 4096 ≤ s.i.toNat + x.toNat) :
    exec (.ldMemVx x) s = .next (s.raiseMemOob (0xF#4 ++ x ++ 0x55#8)) := by
  have len : (s.regBlock x).length = x.toNat + 1 := regBlock_length s x
  have fails : s.writeBlock (s.regBlock x) = none := writeBlock_beyond (by omega) (by omega)
  simp only [exec, execLdMemVx, fails, encode]

/-- Settles O33: the block of x + 1 registers goes to I; it ends beyond memory when I + x does. -/
theorem storeRegistersToMemory : Obligations.StoreRegistersToMemory := by
  unfold Obligations.StoreRegistersToMemory
  refine fun x => ⟨decodeWord_Fx55 x, fun s => ⟨fun h => ?beyond, fun h hm => ?inside⟩⟩
  case beyond => rw [exec_ldMemVx_beyond h, State.raiseMemOob_eq]
  case inside =>
    have len : (s.regBlock x).length = x.toNat + 1 := regBlock_length s x
    have fits : s.i.toNat + (s.regBlock x).length ≤ 4096 := by omega
    refine ⟨_, exec_ldMemVx_inside h, rfl, fun k hk => ?_, fun a ha => read_writeList_outside hm fits (by omega)⟩
    exact (read_writeList_inside hm fits (by omega)).trans (regBlock_getElem _)

end Sys2Proof.Machine
end

section
/-! Fx65: MEM[I..I+x] to V0..Vx (43_index_memory.md R275). -/

namespace Sys2Proof.Machine

theorem exec_ldVxMem_inside {s : State} {x : Nibble} (h : s.i.toNat + x.toNat < 4096) :
    exec (.ldVxMem x) s =
      .next { s with v := loadRegs s.v 0 (s.mem.readList s.i.toNat (x.toNat + 1)), pc := s.pc + 2 } := by
  have read := readBlock_inside (s := s) (n := x.toNat + 1) h
  simp only [exec, execLdVxMem, read, finish_eq, State.pcMux, State.setRegs]

theorem exec_ldVxMem_beyond {s : State} {x : Nibble} (h : 4096 ≤ s.i.toNat + x.toNat) :
    exec (.ldVxMem x) s = .next (s.raiseMemOob (0xF#4 ++ x ++ 0x65#8)) := by
  have fails : s.readBlock (x.toNat + 1) = none := readBlock_beyond (Nat.succ_ne_zero _) (Nat.lt_succ_of_le h)
  simp only [exec, execLdVxMem, fails, encode]

/-- Loading n bytes of memory from `a` up into V0, V1, and so on: the first n registers get them, the others stay. -/
theorem loadRegs_readList_getElem (v : Vector Byte 16) (m : Memory) (a n : Nat) {k : Nat} (hk : k < 16) :
    (loadRegs v 0 (m.readList a n))[k] = if k < n then m.read (a + k) else v[k] := by
  rw [loadRegs_getElem v _ 0 k hk, readList_length]
  by_cases h : k < n
  · rw [if_pos (by omega), if_pos h, Nat.sub_zero, readList_getD m a n k h]
  · rw [if_neg (by omega), if_neg h]

/-- Settles O34: the x + 1 bytes from I go to V0..Vx; the block ends beyond memory when I + x does. -/
theorem loadRegistersFromMemory : Obligations.LoadRegistersFromMemory := by
  unfold Obligations.LoadRegistersFromMemory
  refine fun x => ⟨decodeWord_Fx65 x, fun s => ⟨fun h => ?beyond, fun h => ?inside⟩⟩
  case beyond => rw [exec_ldVxMem_beyond h, State.raiseMemOob_eq]
  case inside =>
    refine ⟨_, exec_ldVxMem_inside h, rfl, fun k => ?_⟩
    simp only [State.reg, loadRegs_readList_getElem, Nat.lt_succ_iff]

end Sys2Proof.Machine
end

section
/-! 00E0: every cell of the display goes unlit (44_display_random.md R300). -/

namespace Sys2Proof.Machine

theorem decodeWord_00E0 : decodeWord 0x00E0 = .ok .cls := by decide

theorem exec_cls (s : State) : exec .cls s = .next { s with disp := Display.dark, pc := s.pc + 2 } := rfl

/-- Settles O37: CLS puts the dark display in place of the old one, and no cell of it is lit. -/
theorem clearUnlightsEveryCell : Obligations.ClearUnlightsEveryCell := by
  unfold Obligations.ClearUnlightsEveryCell
  exact ⟨decodeWord_00E0, fun s => ⟨_, exec_cls s, rfl, dark_lit⟩⟩

end Sys2Proof.Machine
end

section
/-! The sprite of Dxyn: the n bytes from I, drawn at column Vx and row Vy (44_display_random.md R302). -/

namespace Sys2Proof.Machine

/-- The display and the collision flag that Dxyn leaves when its bytes exist (`exec_drw_inside`). -/
def State.drawn (s : State) (x y n : Nibble) : Display × Bool :=
  s.drawSprite (s.reg x) (s.reg y) (s.mem.readList s.i.toNat n.toNat)

/-- SPRITE_MSB_FIRST = true makes bit 7 the leftmost column (44_display_random.md R303, log entry 4). -/
theorem spriteBit_eq (b : Byte) (col : Nat) : spriteBit b col = b.getLsbD (7 - col) := if_pos rfl

/-- The cells the draw visits are those the sprite touches: its r-th byte is the one at I + r. -/
theorem mem_spriteCells_iff_touches (s : State) (x y n : Nibble) (k : Nat) :
    k ∈ spriteCells (s.reg x) (s.reg y) 0 (s.mem.readList s.i.toNat n.toNat) ↔ SpriteTouches s x y n k := by
  have byte {r : Nat} (hr : r < n.toNat) : (s.mem.readList s.i.toNat n.toNat).getD r 0 = s.mem.read (s.i.toNat + r) :=
    readList_getD s.mem s.i.toNat n.toNat r hr
  simp only [mem_spriteCells, readList_length, spriteBit_eq, spriteCell, Nat.zero_add]
  constructor
  · rintro ⟨r, hr, col, hcol, hbit, hk⟩
    exact ⟨r, col, hr, hcol, byte hr ▸ hbit, hk⟩
  · rintro ⟨r, col, hr, hcol, hbit, hk⟩
    exact ⟨r, hr, col, hcol, (byte hr).symm ▸ hbit, hk⟩

/-- A nibble counts at most 15 rows, so `drawSprite_spec` applies to the sprite of Dxyn. -/
theorem sprite_length_le (s : State) (n : Nibble) : (s.mem.readList s.i.toNat n.toNat).length ≤ 32 := by
  rw [readList_length]
  exact n.isLt.le.trans (by decide)

theorem drawn_lit_ne_iff (s : State) (x y n : Nibble) (k : Nat) :
    Display.lit (s.drawn x y n).1 k ≠ Display.lit s.disp k ↔ SpriteTouches s x y n k := by
  rw [State.drawn, (drawSprite_spec s _ _ _ (sprite_length_le s n)).1, ← Bool.xor_iff_ne, Bool.xor_comm, ← Bool.xor_assoc,
    Bool.xor_self, Bool.false_xor, decide_eq_true_iff, mem_spriteCells_iff_touches]

theorem drawn_collides_iff (s : State) (x y n : Nibble) :
    (s.drawn x y n).2 = true ↔ ∃ k, SpriteTouches s x y n k ∧ Display.lit s.disp k = true := by
  simp only [State.drawn, (drawSprite_spec s _ _ _ (sprite_length_le s n)).2, mem_spriteCells_iff_touches]

end Sys2Proof.Machine
end

section
/-! Dxyn: its word, its fault, and the draw (44_display_random.md R302). -/

namespace Sys2Proof.Machine

theorem decodeWord_family_D {w : Word} (h : fieldD1 w = 0xD#4) :
    decodeWord w = .ok (.drw (fieldX w) (fieldY w) (fieldN w)) := by
  simp [decodeWord, h]

theorem decodeWord_Dxyn (x y n : Nibble) : decodeWord (0xD#4 ++ x ++ y ++ n) = .ok (.drw x y n) := by
  obtain ⟨hd1, hx, hy, hn⟩ := fields_xyn 0xD#4 x y n
  rw [decodeWord_family_D hd1, hx, hy, hn]

theorem exec_drw_beyond {s : State} {n : Nibble} (hn : n ≠ 0) (h : 4096 ≤ s.i.toNat + n.toNat - 1) (x y : Nibble) :
    exec (.drw x y n) s = .next (s.raiseMemOob (0xD#4 ++ x ++ y ++ n)) := by
  have rows : n.toNat ≠ 0 := fun e => hn (BitVec.eq_of_toNat_eq e)
  have fails : s.readBlock n.toNat = none := readBlock_beyond rows (by omega)
  simp only [exec, execDrw, fails, encode]

theorem writeFlag_reg_flag (s : State) (f : Bool) : (s.writeFlag f).reg 0xF = flagByte f :=
  (writeReg_reg s 0xF 0xF _).trans (if_pos rfl)

theorem writeFlag_reg_of_ne {r : Nibble} (hr : r ≠ 0xF) (s : State) (f : Bool) : (s.writeFlag f).reg r = s.reg r :=
  (writeReg_reg s 0xF r _).trans (if_neg hr)

/-- A draw whose rows all exist, the draw of no rows from any I included, writes the display, VF and PC. -/
theorem exec_drw_inside {s : State} {n : Nibble} (h : n = 0 ∨ s.i.toNat + n.toNat - 1 < 4096) (x y : Nibble) :
    exec (.drw x y n) s =
      .next { s with disp := (s.drawn x y n).1, v := (s.writeFlag (s.drawn x y n).2).v, pc := s.pc + 2 } := by
  obtain ⟨-, read⟩ | ⟨rows, beyond, -⟩ := readBlock_cases s n.toNat
  · simp only [exec, execDrw, read]
    rfl
  · rcases h with rfl | inside
    · exact absurd rfl rows
    · omega

/-- Settles O39: the draw flips exactly the cells the sprite touches, its flag goes to VF, and its rows end beyond memory when
I + n - 1 does. -/
theorem drawTogglesTheSpriteCells : Obligations.DrawTogglesTheSpriteCells := by
  unfold Obligations.DrawTogglesTheSpriteCells
  refine fun x y n => ⟨decodeWord_Dxyn x y n, fun s => ⟨fun hn h => ?beyond, fun h => ?inside⟩⟩
  case beyond => rw [exec_drw_beyond hn h, State.raiseMemOob_eq]
  case inside =>
    have flag := writeFlag_reg_flag s (s.drawn x y n).2
    refine ⟨_, exec_drw_inside h x y, rfl, drawn_lit_ne_iff s x y n, fun lit => ?_, fun dark => ?_,
      fun _ hr => writeFlag_reg_of_ne hr s _⟩
    · exact flag.trans (if_pos ((drawn_collides_iff s x y n).2 lit))
    · refine flag.trans (if_neg fun collides => ?_)
      obtain ⟨k, touched, lit⟩ := (drawn_collides_iff s x y n).1 collides
      exact Bool.false_ne_true ((dark k touched).symm.trans lit)

end Sys2Proof.Machine
end

section
/-! The words of the key and timer instructions: the low byte selects the form inside families E and F (30_encoding.md R106,
R107). -/

namespace Sys2Proof.Machine

/-- d1 = E leaves the rest of decoding to the low byte (30_encoding.md R106). -/
theorem decodeWord_family_E {w : Word} (h : fieldD1 w = 0xE#4) : decodeWord w = decodeKey w := by
  simp [decodeWord, h]

/-- A low byte that selects the form `form` in family E gives that form the nibble x the word is built from. -/
theorem decodeWord_Exkk {form : Nibble → Instr} {kk : Byte}
    (h : ∀ w, fieldNN w = kk → decodeKey w = .ok (form (fieldX w))) (x : Nibble) :
    decodeWord (0xE#4 ++ x ++ kk) = .ok (form x) := by
  obtain ⟨hd1, hx, hkk⟩ := fields_xnn 0xE#4 x kk
  rw [decodeWord_family_E hd1, h _ hkk, hx]

theorem decodeWord_Ex9E (x : Nibble) : decodeWord (0xE#4 ++ x ++ 0x9E#8) = .ok (.skp x) :=
  decodeWord_Exkk (fun w h => by simp [decodeKey, h]) x

theorem decodeWord_ExA1 (x : Nibble) : decodeWord (0xE#4 ++ x ++ 0xA1#8) = .ok (.sknp x) :=
  decodeWord_Exkk (fun w h => by simp [decodeKey, h]) x

theorem decodeWord_Fx07 (x : Nibble) : decodeWord (0xF#4 ++ x ++ 0x07#8) = .ok (.ldVxDt x) :=
  decodeWord_Fxkk (fun w h => by simp [decodeMisc, h]) x

theorem decodeWord_Fx0A (x : Nibble) : decodeWord (0xF#4 ++ x ++ 0x0A#8) = .ok (.ldVxK x) :=
  decodeWord_Fxkk (fun w h => by simp [decodeMisc, h]) x

theorem decodeWord_Fx15 (x : Nibble) : decodeWord (0xF#4 ++ x ++ 0x15#8) = .ok (.ldDtVx x) :=
  decodeWord_Fxkk (fun w h => by simp [decodeMisc, h]) x

theorem decodeWord_Fx18 (x : Nibble) : decodeWord (0xF#4 ++ x ++ 0x18#8) = .ok (.ldStVx x) :=
  decodeWord_Fxkk (fun w h => by simp [decodeMisc, h]) x

end Sys2Proof.Machine
end

section
/-! Fx0A: the scan for the least pressed key, and the two ends of the wait (45_keys_timers.md R323). -/

namespace Sys2Proof.Machine

theorem key_toList_getElem? (s : State) (k : Fin 16) : s.key.toList[k.val]? = some s.key[k] := by
  simp

/-- The scan stops at a pressed key with no pressed key below it. -/
theorem leastKey_of_least {s : State} {k : Fin 16} (pressed : s.key[k] = true)
    (below : ∀ j : Fin 16, j < k → s.key[j] = false) : s.leastKey = some (BitVec.ofNat 8 k.val) := by
  have listed : s.key.toList[k.val]? = some true := by rw [key_toList_getElem?, pressed]
  suffices found : firstTrue 0 s.key.toList = some k.val by rw [State.leastKey, found, Option.map_some]
  cases scan : firstTrue 0 s.key.toList with
  | none => exact absurd (firstTrue_none.1 scan true (List.mem_of_getElem? listed)) (by decide)
  | some m =>
    obtain ⟨-, hit, unpressed⟩ := firstTrue_some scan
    rw [Nat.sub_zero] at hit unpressed
    obtain hlt | rfl | hgt := Nat.lt_trichotomy m k.val
    · have hm : m < 16 := hlt.trans k.isLt
      rw [key_toList_getElem? s ⟨m, hm⟩, below ⟨m, hm⟩ hlt] at hit
      cases hit
    · rfl
    · cases listed.symm.trans (unpressed k.val hgt)

theorem leastKey_of_none_pressed {s : State} (h : ∀ k : Fin 16, s.key[k] = false) : s.leastKey = none := by
  have off : ∀ p ∈ s.key.toList, p = false := by
    intro p hp
    obtain ⟨k, hk, rfl⟩ := List.mem_iff_getElem.1 hp
    exact h ⟨k, by simpa using hk⟩
  rw [State.leastKey, firstTrue_none.2 off, Option.map_none]

theorem exec_ldVxK_of_leastKey {s : State} {k : Byte} (h : s.leastKey = some k) (x : Nibble) :
    exec (.ldVxK x) s = .next { s with v := (s.writeReg x k).v, pc := s.pc + 2 } := by
  simp only [exec, execLdVxK, h]
  rfl

/-- With no key pressed PC goes back to the fetch address, where the state before fetch's advance has it. -/
theorem exec_ldVxK_of_no_key {s : State} (h : s.leastKey = none) (x : Nibble) : exec (.ldVxK x) s = .next s := by
  simp only [exec, execLdVxK, h]
  rfl

/-- Settles O43: the scan gives the least pressed key, which goes to Vx, or none, and then PC rewinds. -/
theorem keyWaitTakesTheLeastKeyOrRewinds : Obligations.KeyWaitTakesTheLeastKeyOrRewinds := by
  unfold Obligations.KeyWaitTakesTheLeastKeyOrRewinds
  refine fun x => ⟨decodeWord_Fx0A x, fun s => ⟨fun k pressed below => ?pressed, fun none_pressed => ?unpressed⟩⟩
  case pressed =>
    have regs (r : Nibble) := writeReg_reg s x r (BitVec.ofNat 8 k.val)
    have fits : k.val < 2 ^ 8 := k.isLt.trans (by decide)
    have index : (BitVec.ofNat 8 k.val).toNat = k.val := (BitVec.toNat_ofNat ..).trans (Nat.mod_eq_of_lt fits)
    refine ⟨_, exec_ldVxK_of_leastKey (leastKey_of_least pressed below) x, rfl, ?_, fun r hr => ?_⟩
    · exact (congrArg BitVec.toNat ((regs x).trans (if_pos rfl))).trans index
    · exact (regs r).trans (if_neg hr)
  case unpressed => exact exec_ldVxK_of_no_key (leastKey_of_none_pressed none_pressed) x

end Sys2Proof.Machine
end

section
/-! Ex9E and ExA1: the value of Vx is the index of a key, whose level is the skip's condition, or is 16 or more and a fault
(45_keys_timers.md R320, R321). -/

namespace Sys2Proof.Machine

theorem keyAt_of_index {s : State} {b : Byte} {k : Fin 16} (h : b.toNat = k.val) : s.keyAt b = some s.key[k] := by
  obtain ⟨_, level⟩ | ⟨beyond, -⟩ := keyAt_cases s b
  · simpa only [h, Fin.getElem_fin] using level
  · omega

theorem keyAt_beyond {s : State} {b : Byte} (h : 16 ≤ b.toNat) : s.keyAt b = none := by
  obtain ⟨index, -⟩ | ⟨-, fails⟩ := keyAt_cases s b
  · omega
  · exact fails

theorem exec_skp_beyond {s : State} {x : Nibble} (h : 16 ≤ (s.reg x).toNat) :
    exec (.skp x) s = .next (s.raise .keyRange (0xE#4 ++ x ++ 0x9E#8) (s.reg x).toNat) := by
  simp only [exec, execSkp, State.portA, keyAt_beyond h, encode]

theorem exec_sknp_beyond {s : State} {x : Nibble} (h : 16 ≤ (s.reg x).toNat) :
    exec (.sknp x) s = .next (s.raise .keyRange (0xE#4 ++ x ++ 0xA1#8) (s.reg x).toNat) := by
  simp only [exec, execSknp, State.portA, keyAt_beyond h, encode]

theorem exec_skp_of_index {s : State} {x : Nibble} {k : Fin 16} (h : (s.reg x).toNat = k.val) :
    exec (.skp x) s = .next { s with pc := if s.key[k] = true then s.pc + 4 else s.pc + 2 } := by
  simp only [exec, execSkp, State.portA, keyAt_of_index h, skipStep_of_iff Iff.rfl]

theorem exec_sknp_of_index {s : State} {x : Nibble} {k : Fin 16} (h : (s.reg x).toNat = k.val) :
    exec (.sknp x) s = .next { s with pc := if s.key[k] = false then s.pc + 4 else s.pc + 2 } := by
  simp only [exec, execSknp, State.portA, keyAt_of_index h, skipStep_of_iff (Bool.not_eq_true' _).to_iff]

/-- Settles O41: a value of 16 or more is no key's and raises KEY_RANGE, which writes FAULT alone; any other is the index of the
key that decides the skip. -/
theorem keySkips : Obligations.KeySkips := by
  unfold Obligations.KeySkips
  refine fun x => ⟨decodeWord_Ex9E x, decodeWord_ExA1 x, fun s => ⟨fun h => ?beyond, fun k h => ?index⟩⟩
  case beyond =>
    rw [exec_skp_beyond h, exec_sknp_beyond h, State.raise_eq, State.raise_eq]
    exact ⟨rfl, rfl⟩
  case index => exact ⟨exec_skp_of_index h, exec_sknp_of_index h⟩

end Sys2Proof.Machine
end

section
/-! Fx07, Fx15 and Fx18: each moves a byte between Vx and a timer (45_keys_timers.md R322, R324, R325). -/

namespace Sys2Proof.Machine

theorem exec_ldVxDt (x : Nibble) (s : State) :
    exec (.ldVxDt x) s = .next { s with v := (s.writeReg x s.dt).v, pc := s.pc + 2 } := rfl

theorem exec_ldDtVx (x : Nibble) (s : State) :
    exec (.ldDtVx x) s = .next { s with dt := s.reg x, pc := s.pc + 2 } := rfl

theorem exec_ldStVx (x : Nibble) (s : State) :
    exec (.ldStVx x) s = .next { s with st := s.reg x, pc := s.pc + 2 } := rfl

/-- Settles O42: each of the three writes one byte, to Vx or to its timer, and moves PC by 2. -/
theorem timerReadsAndWrites : Obligations.TimerReadsAndWrites := by
  unfold Obligations.TimerReadsAndWrites
  exact fun x => ⟨⟨decodeWord_Fx07 x, fun s => ⟨_, exec_ldVxDt x s, rfl, fun r => writeReg_reg s x r s.dt⟩⟩,
    ⟨decodeWord_Fx15 x, exec_ldDtVx x⟩, ⟨decodeWord_Fx18 x, exec_ldStVx x⟩⟩

end Sys2Proof.Machine
end

section
/-! TICK on a running machine: the two timers count down, each on its own (60_exceptions.md R420). The halted case is
`State.tick_halted`. -/

namespace Sys2Proof.Machine

/-- Counting down is the truncated subtraction of the naturals: it stops at 0 and does not wrap to 255. -/
theorem countDown_toNat (b : Byte) : (countDown b).toNat = b.toNat - 1 := by
  unfold countDown
  split
  case isTrue zero => rw [zero]; rfl
  case isFalse nonzero =>
    have one_le : 1#8 ≤ b := by bv_omega
    exact BitVec.toNat_sub_of_le one_le

theorem State.tick_running {s : State} (h : s.running) : s.tick = { s with dt := countDown s.dt, st := countDown s.st } :=
  if_neg (Bool.eq_false_iff.1 h)

/-- Settles O47: a halted machine stands still; a running one has its two timers counted down and every other field kept. -/
theorem tickCountsBothTimersDown : Obligations.TickCountsBothTimersDown := by
  unfold Obligations.TickCountsBothTimersDown
  refine fun s => ⟨fun halted => ?_, fun running => ?_⟩
  · exact transact_halted halted nofun
  · exact ⟨_, congrArg Host.Outcome.next (State.tick_running running), rfl, countDown_toNat s.dt, countDown_toNat s.st⟩

end Sys2Proof.Machine
end

section
/-! RESET issued twice (70_reset_and_hazards.md R450): the count of free random bytes goes on through both, every other field is
already at its reset value. -/

namespace Sys2Proof.Machine

/-- The restarted state depends on the old one through `rndDraws` alone, and RESET keeps that. -/
theorem restart_restart (s : State) : s.restart.restart = s.restart := rfl

/-- Settles O45: RESET asks nothing of the state it is issued in, and restarting a restarted state changes nothing. -/
theorem resetReinitialisesEverything : Obligations.ResetReinitialisesEverything := by
  unfold Obligations.ResetReinitialisesEverything
  intro s
  have second : transact .reset s.restart = .next s.restart := congrArg Host.Outcome.next (restart_restart s)
  exact ⟨s.restart, rfl, restart_atResetValues s, second⟩

end Sys2Proof.Machine
end

section
/-! The round trip between words and instructions (30_encoding.md sections 1 to 3): every encoding decodes to its instruction, and
every word that decodes is the encoding of what it decodes to. -/

namespace Sys2Proof.Machine

theorem decodeWord_family_C {w : Word} (h : fieldD1 w = 0xC#4) : decodeWord w = .ok (.rnd (fieldX w) (fieldNN w)) := by
  simp [decodeWord, h]

theorem decodeWord_Cxnn (x : Nibble) (nn : Byte) : decodeWord (0xC#4 ++ x ++ nn) = .ok (.rnd x nn) := by
  obtain ⟨hd1, hx, hnn⟩ := fields_xnn 0xC#4 x nn
  rw [decodeWord_family_C hd1, hx, hnn]

/-- The decoder undoes the encoder, format by format. -/
theorem decodeWord_encode : ∀ i : Instr, decodeWord (encode i) = .ok i
  | .nop => decodeWord_0000
  | .cls => decodeWord_00E0
  | .ret => decodeWord_00EE
  | .jp nnn => decodeWord_1nnn nnn
  | .call nnn => decodeWord_2nnn nnn
  | .seImm x nn => decodeWord_3xnn x nn
  | .sneImm x nn => decodeWord_4xnn x nn
  | .seReg x y => decodeWord_5xy0 x y
  | .ldImm x nn => decodeWord_6xnn x nn
  | .addImm x nn => decodeWord_7xnn x nn
  | .ldReg x y => decodeWord_8xy0 x y
  | .or x y => decodeWord_8xy1 x y
  | .and x y => decodeWord_8xy2 x y
  | .xor x y => decodeWord_8xy3 x y
  | .addReg x y => decodeWord_8xy4 x y
  | .sub x y => decodeWord_8xy5 x y
  | .shr x z => decodeWord_8xz6 x z
  | .subn x y => decodeWord_8xy7 x y
  | .shl x z => decodeWord_8xzE x z
  | .se9Reg x y => decodeWord_9xy0 x y
  | .ldI nnn => decodeWord_Annn nnn
  | .jpV0 nnn => decodeWord_Bnnn nnn
  | .rnd x nn => decodeWord_Cxnn x nn
  | .drw x y n => decodeWord_Dxyn x y n
  | .skp x => decodeWord_Ex9E x
  | .sknp x => decodeWord_ExA1 x
  | .ldVxDt x => decodeWord_Fx07 x
  | .ldVxK x => decodeWord_Fx0A x
  | .ldDtVx x => decodeWord_Fx15 x
  | .ldStVx x => decodeWord_Fx18 x
  | .addIVx x => decodeWord_Fx1E x
  | .ldFVx x => decodeWord_Fx29 x
  | .ldBVx x => decodeWord_Fx33 x
  | .ldMemVx x => decodeWord_Fx55 x
  | .ldVxMem x => decodeWord_Fx65 x

/-- Settles O2: by the decoder's lemma for the word of each form. -/
theorem decodeOfEncodeIsIdentity : Obligations.DecodeOfEncodeIsIdentity := by
  unfold Obligations.DecodeOfEncodeIsIdentity
  exact decodeWord_encode

/-- Settles O1: each of the fifteen words is, bit by bit, the encoding of its instruction, and an encoding decodes. -/
theorem sampleWordsDecode : Obligations.SampleWordsDecode := by
  have sample {w : Word} {i : Instr} (h : encode i = w) : decodeWord w = .ok i := h ▸ decodeWord_encode i
  unfold Obligations.SampleWordsDecode
  exact ⟨sample rfl, sample rfl, sample rfl, sample rfl, sample rfl, sample rfl, sample rfl, sample rfl, sample rfl, sample rfl,
    sample rfl, sample rfl, sample rfl, sample rfl, sample rfl⟩

/-! A word whose fields are known is the concatenation of them, in each of the three formats. -/

theorem word_of_d1 {w : Word} {d : Nibble} (h : fieldD1 w = d) : d ++ fieldNNN w = w := h ▸ word_as_nnn w

theorem word_of_d1_xnn {w : Word} {d : Nibble} (h : fieldD1 w = d) : d ++ fieldX w ++ fieldNN w = w := h ▸ word_as_xnn w

theorem word_of_d1_xyn {w : Word} {d : Nibble} (h : fieldD1 w = d) : d ++ fieldX w ++ fieldY w ++ fieldN w = w :=
  h ▸ word_as_xyn w

theorem word_of_d1_nn {w : Word} {d : Nibble} {kk : Byte} (h : fieldD1 w = d) (hk : fieldNN w = kk) : d ++ fieldX w ++ kk = w :=
  hk ▸ word_of_d1_xnn h

theorem word_of_d1_d4 {w : Word} {d n : Nibble} (h : fieldD1 w = d) (hn : fieldN w = n) :
    d ++ fieldX w ++ fieldY w ++ n = w :=
  hn ▸ word_of_d1_xyn h

/-! What each branch of the decoder answers, with the test that selected it, is the instruction the word encodes. -/

theorem encode_of_decodeSystem {w : Word} {i : Instr} (hd : decodeSystem w = .ok i) : encode i = w := by
  unfold decodeSystem at hd
  split_ifs at hd <;> cases hd <;> exact Eq.symm ‹_›

theorem encode_of_decodeAlu {w : Word} {i : Instr} (h8 : fieldD1 w = 0x8#4) (hd : decodeAlu w = .ok i) : encode i = w := by
  unfold decodeAlu at hd
  dsimp only at hd
  split_ifs at hd <;> cases hd <;> exact word_of_d1_d4 h8 ‹_›

theorem encode_of_decodeKey {w : Word} {i : Instr} (hE : fieldD1 w = 0xE#4) (hd : decodeKey w = .ok i) : encode i = w := by
  unfold decodeKey at hd
  split_ifs at hd <;> cases hd <;> exact word_of_d1_nn hE ‹_›

theorem encode_of_decodeMisc {w : Word} {i : Instr} (hF : fieldD1 w = 0xF#4) (hd : decodeMisc w = .ok i) : encode i = w := by
  unfold decodeMisc at hd
  dsimp only at hd
  split_ifs at hd <;> cases hd <;> exact word_of_d1_nn hF ‹_›

/-- d1 = 0 leaves decoding to all 16 bits (30_encoding.md R106). -/
theorem decodeWord_family_0 {w : Word} (h : fieldD1 w = 0x0#4) : decodeWord w = decodeSystem w := by
  simp [decodeWord, h]

/-- d1 = 5 with any d4: the whole family, refusals included. -/
theorem decodeWord_family_5_all {w : Word} (h : fieldD1 w = 0x5#4) :
    decodeWord w = if fieldN w = 0x0#4 then .ok (.seReg (fieldX w) (fieldY w)) else .error .skipEqualWord := by
  simp [decodeWord, h]

/-- d1 = 9 with any d4: the whole family, refusals included. -/
theorem decodeWord_family_9_all {w : Word} (h : fieldD1 w = 0x9#4) :
    decodeWord w = if fieldN w = 0x0#4 then .ok (.se9Reg (fieldX w) (fieldY w)) else .error .skipNineWord := by
  simp [decodeWord, h]

/-- The sixteen families of words, by the nibble d1 (30_encoding.md R106). -/
theorem nibble_cases (d : Nibble) : d = 0x0#4 ∨ d = 0x1#4 ∨ d = 0x2#4 ∨ d = 0x3#4 ∨ d = 0x4#4 ∨ d = 0x5#4 ∨ d = 0x6#4 ∨
    d = 0x7#4 ∨ d = 0x8#4 ∨ d = 0x9#4 ∨ d = 0xA#4 ∨ d = 0xB#4 ∨ d = 0xC#4 ∨ d = 0xD#4 ∨ d = 0xE#4 ∨ d = 0xF#4 := by
  revert d
  decide

/-- The encoder undoes the decoder, family by family. -/
theorem encode_of_decodeWord {w : Word} {i : Instr} (hd : decodeWord w = .ok i) : encode i = w := by
  rcases nibble_cases (fieldD1 w) with h0 | h1 | h2 | h3 | h4 | h5 | h6 | h7 | h8 | h9 | hA | hB | hC | hD | hE | hF
  · rw [decodeWord_family_0 h0] at hd; exact encode_of_decodeSystem hd
  · rw [decodeWord_family_1 h1] at hd; cases hd; exact word_of_d1 h1
  · rw [decodeWord_family_2 h2] at hd; cases hd; exact word_of_d1 h2
  · rw [decodeWord_family_3 h3] at hd; cases hd; exact word_of_d1_xnn h3
  · rw [decodeWord_family_4 h4] at hd; cases hd; exact word_of_d1_xnn h4
  · rw [decodeWord_family_5_all h5] at hd; split_ifs at hd with hn; cases hd; exact word_of_d1_d4 h5 hn
  · rw [decodeWord_family_6 h6] at hd; cases hd; exact word_of_d1_xnn h6
  · rw [decodeWord_family_7 h7] at hd; cases hd; exact word_of_d1_xnn h7
  · rw [decodeWord_family_8 h8] at hd; exact encode_of_decodeAlu h8 hd
  · rw [decodeWord_family_9_all h9] at hd; split_ifs at hd with hn; cases hd; exact word_of_d1_d4 h9 hn
  · rw [decodeWord_family_A hA] at hd; cases hd; exact word_of_d1 hA
  · rw [decodeWord_family_B hB] at hd; cases hd; exact word_of_d1 hB
  · rw [decodeWord_family_C hC] at hd; cases hd; exact word_of_d1_xnn hC
  · rw [decodeWord_family_D hD] at hd; cases hd; exact word_of_d1_xyn hD
  · rw [decodeWord_family_E hE] at hd; exact encode_of_decodeKey hE hd
  · rw [decodeWord_family_F hF] at hd; exact encode_of_decodeMisc hF hd

/-- Settles O3: by the encoder undoing the decoder. -/
theorem encodeOfDecodeIsTheWord : Obligations.EncodeOfDecodeIsTheWord := by
  unfold Obligations.EncodeOfDecodeIsTheWord
  exact fun _ _ => encode_of_decodeWord

end Sys2Proof.Machine
end

section
/-! The decoder as the table of 35 rows: a row accepts exactly the words that its instructions encode to (30_encoding.md R105,
R107). -/

namespace Sys2Proof.Machine

/-- The table lists the row of every instruction: the row does not depend on the operands. -/
theorem row_mem_opTable (i : Instr) : i.row ∈ opTable := by
  cases i <;> simp [opTable, Instr.row]

/-- The table lists nothing else. -/
theorem exists_row_of_mem_opTable : ∀ r ∈ opTable, ∃ i : Instr, i.row = r := by
  simp [opTable]

theorem row_accepts_encode : ∀ i : Instr, i.row.accepts (encode i) = true
  | .nop => Laws.EncodingRow.nop
  | .cls => Laws.EncodingRow.cls
  | .ret => Laws.EncodingRow.ret
  | .jp nnn => Laws.EncodingRow.jp nnn
  | .call nnn => Laws.EncodingRow.call nnn
  | .seImm x nn => Laws.EncodingRow.seImm x nn
  | .sneImm x nn => Laws.EncodingRow.sneImm x nn
  | .seReg x y => Laws.EncodingRow.seReg x y
  | .ldImm x nn => Laws.EncodingRow.ldImm x nn
  | .addImm x nn => Laws.EncodingRow.addImm x nn
  | .ldReg x y => Laws.EncodingRow.ldReg x y
  | .or x y => Laws.EncodingRow.or x y
  | .and x y => Laws.EncodingRow.and x y
  | .xor x y => Laws.EncodingRow.xor x y
  | .addReg x y => Laws.EncodingRow.addReg x y
  | .sub x y => Laws.EncodingRow.sub x y
  | .shr x z => Laws.EncodingRow.shr x z
  | .subn x y => Laws.EncodingRow.subn x y
  | .shl x z => Laws.EncodingRow.shl x z
  | .se9Reg x y => Laws.EncodingRow.se9Reg x y
  | .ldI nnn => Laws.EncodingRow.ldI nnn
  | .jpV0 nnn => Laws.EncodingRow.jpV0 nnn
  | .rnd x nn => Laws.EncodingRow.rnd x nn
  | .drw x y n => Laws.EncodingRow.drw x y n
  | .skp x => Laws.EncodingRow.skp x
  | .sknp x => Laws.EncodingRow.sknp x
  | .ldVxDt x => Laws.EncodingRow.ldVxDt x
  | .ldVxK x => Laws.EncodingRow.ldVxK x
  | .ldDtVx x => Laws.EncodingRow.ldDtVx x
  | .ldStVx x => Laws.EncodingRow.ldStVx x
  | .addIVx x => Laws.EncodingRow.addIVx x
  | .ldFVx x => Laws.EncodingRow.ldFVx x
  | .ldBVx x => Laws.EncodingRow.ldBVx x
  | .ldMemVx x => Laws.EncodingRow.ldMemVx x
  | .ldVxMem x => Laws.EncodingRow.ldVxMem x

theorem and_mask_of_accepts {p m w : Word} (h : OpRow.accepts ⟨p, m⟩ w = true) : w &&& m = p := beq_iff_eq.1 h

/-! The fields of a word that a row accepts, for each of the four masks; the fields the mask drops stay free. -/

theorem fields_of_mask_F000 {w : Word} {d : Nibble} (h : OpRow.accepts ⟨d ++ 0#12, 0xF000#16⟩ w = true) : fieldD1 w = d := by
  have masked := Laws.and_format_nnn (fieldD1 w) (fieldNNN w)
  rw [word_as_nnn, and_mask_of_accepts h] at masked
  have kept := (fields_nnn (fieldD1 w) 0#12).1
  rw [← masked] at kept
  exact kept.symm.trans (fields_nnn d 0#12).1

theorem fields_of_mask_F00F {w : Word} {d n : Nibble} (h : OpRow.accepts ⟨d ++ 0#4 ++ 0#4 ++ n, 0xF00F#16⟩ w = true) :
    fieldD1 w = d ∧ fieldN w = n := by
  have masked := Laws.and_format_xy (fieldD1 w) (fieldX w) (fieldY w) (fieldN w)
  rw [word_as_xyn, and_mask_of_accepts h] at masked
  obtain ⟨hd, -, -, hn⟩ := fields_xyn (fieldD1 w) 0#4 0#4 (fieldN w)
  obtain ⟨hd', -, -, hn'⟩ := fields_xyn d 0#4 0#4 n
  rw [← masked] at hd hn
  exact ⟨hd.symm.trans hd', hn.symm.trans hn'⟩

theorem fields_of_mask_F0FF {w : Word} {d : Nibble} {kk : Byte} (h : OpRow.accepts ⟨d ++ 0#4 ++ kk, 0xF0FF#16⟩ w = true) :
    fieldD1 w = d ∧ fieldNN w = kk := by
  have masked := Laws.and_format_x (fieldD1 w) (fieldX w) (fieldNN w)
  rw [word_as_xnn, and_mask_of_accepts h] at masked
  obtain ⟨hd, -, hk⟩ := fields_xnn (fieldD1 w) 0#4 (fieldNN w)
  obtain ⟨hd', -, hk'⟩ := fields_xnn d 0#4 kk
  rw [← masked] at hd hk
  exact ⟨hd.symm.trans hd', hk.symm.trans hk'⟩

/-! So the word is in the row's format, with the operands its own fields give. -/

theorem word_of_mask_F000 {w : Word} {d : Nibble} (h : OpRow.accepts ⟨d ++ 0#12, 0xF000#16⟩ w = true) :
    d ++ fieldNNN w = w :=
  word_of_d1 (fields_of_mask_F000 h)

theorem word_of_mask_F000_xnn {w : Word} {d : Nibble} (h : OpRow.accepts ⟨d ++ 0#12, 0xF000#16⟩ w = true) :
    d ++ fieldX w ++ fieldNN w = w :=
  word_of_d1_xnn (fields_of_mask_F000 h)

theorem word_of_mask_F000_xyn {w : Word} {d : Nibble} (h : OpRow.accepts ⟨d ++ 0#12, 0xF000#16⟩ w = true) :
    d ++ fieldX w ++ fieldY w ++ fieldN w = w :=
  word_of_d1_xyn (fields_of_mask_F000 h)

theorem word_of_mask_F00F {w : Word} {d n : Nibble} (h : OpRow.accepts ⟨d ++ 0#4 ++ 0#4 ++ n, 0xF00F#16⟩ w = true) :
    d ++ fieldX w ++ fieldY w ++ n = w :=
  word_of_d1_d4 (fields_of_mask_F00F h).1 (fields_of_mask_F00F h).2

theorem word_of_mask_F0FF {w : Word} {d : Nibble} {kk : Byte} (h : OpRow.accepts ⟨d ++ 0#4 ++ kk, 0xF0FF#16⟩ w = true) :
    d ++ fieldX w ++ kk = w :=
  word_of_d1_nn (fields_of_mask_F0FF h).1 (fields_of_mask_F0FF h).2

theorem word_of_mask_FFFF {w p : Word} (h : OpRow.accepts ⟨p, 0xFFFF#16⟩ w = true) : p = w :=
  (and_mask_of_accepts h).symm.trans (BitVec.and_allOnes (x := w))

/-- A word that the row of `i` accepts is the encoding of some instruction of that row. -/
theorem exists_encode_of_accepts : ∀ (i : Instr) (w : Word), i.row.accepts w = true → ∃ j, encode j = w ∧ j.row = i.row
  | .nop, _, h => ⟨.nop, word_of_mask_FFFF h, rfl⟩
  | .cls, _, h => ⟨.cls, word_of_mask_FFFF h, rfl⟩
  | .ret, _, h => ⟨.ret, word_of_mask_FFFF h, rfl⟩
  | .jp _, w, h => ⟨.jp (fieldNNN w), word_of_mask_F000 h, rfl⟩
  | .call _, w, h => ⟨.call (fieldNNN w), word_of_mask_F000 h, rfl⟩
  | .seImm _ _, w, h => ⟨.seImm (fieldX w) (fieldNN w), word_of_mask_F000_xnn h, rfl⟩
  | .sneImm _ _, w, h => ⟨.sneImm (fieldX w) (fieldNN w), word_of_mask_F000_xnn h, rfl⟩
  | .seReg _ _, w, h => ⟨.seReg (fieldX w) (fieldY w), word_of_mask_F00F h, rfl⟩
  | .ldImm _ _, w, h => ⟨.ldImm (fieldX w) (fieldNN w), word_of_mask_F000_xnn h, rfl⟩
  | .addImm _ _, w, h => ⟨.addImm (fieldX w) (fieldNN w), word_of_mask_F000_xnn h, rfl⟩
  | .ldReg _ _, w, h => ⟨.ldReg (fieldX w) (fieldY w), word_of_mask_F00F h, rfl⟩
  | .or _ _, w, h => ⟨.or (fieldX w) (fieldY w), word_of_mask_F00F h, rfl⟩
  | .and _ _, w, h => ⟨.and (fieldX w) (fieldY w), word_of_mask_F00F h, rfl⟩
  | .xor _ _, w, h => ⟨.xor (fieldX w) (fieldY w), word_of_mask_F00F h, rfl⟩
  | .addReg _ _, w, h => ⟨.addReg (fieldX w) (fieldY w), word_of_mask_F00F h, rfl⟩
  | .sub _ _, w, h => ⟨.sub (fieldX w) (fieldY w), word_of_mask_F00F h, rfl⟩
  | .shr _ _, w, h => ⟨.shr (fieldX w) (fieldY w), word_of_mask_F00F h, rfl⟩
  | .subn _ _, w, h => ⟨.subn (fieldX w) (fieldY w), word_of_mask_F00F h, rfl⟩
  | .shl _ _, w, h => ⟨.shl (fieldX w) (fieldY w), word_of_mask_F00F h, rfl⟩
  | .se9Reg _ _, w, h => ⟨.se9Reg (fieldX w) (fieldY w), word_of_mask_F00F h, rfl⟩
  | .ldI _, w, h => ⟨.ldI (fieldNNN w), word_of_mask_F000 h, rfl⟩
  | .jpV0 _, w, h => ⟨.jpV0 (fieldNNN w), word_of_mask_F000 h, rfl⟩
  | .rnd _ _, w, h => ⟨.rnd (fieldX w) (fieldNN w), word_of_mask_F000_xnn h, rfl⟩
  | .drw _ _ _, w, h => ⟨.drw (fieldX w) (fieldY w) (fieldN w), word_of_mask_F000_xyn h, rfl⟩
  | .skp _, w, h => ⟨.skp (fieldX w), word_of_mask_F0FF h, rfl⟩
  | .sknp _, w, h => ⟨.sknp (fieldX w), word_of_mask_F0FF h, rfl⟩
  | .ldVxDt _, w, h => ⟨.ldVxDt (fieldX w), word_of_mask_F0FF h, rfl⟩
  | .ldVxK _, w, h => ⟨.ldVxK (fieldX w), word_of_mask_F0FF h, rfl⟩
  | .ldDtVx _, w, h => ⟨.ldDtVx (fieldX w), word_of_mask_F0FF h, rfl⟩
  | .ldStVx _, w, h => ⟨.ldStVx (fieldX w), word_of_mask_F0FF h, rfl⟩
  | .addIVx _, w, h => ⟨.addIVx (fieldX w), word_of_mask_F0FF h, rfl⟩
  | .ldFVx _, w, h => ⟨.ldFVx (fieldX w), word_of_mask_F0FF h, rfl⟩
  | .ldBVx _, w, h => ⟨.ldBVx (fieldX w), word_of_mask_F0FF h, rfl⟩
  | .ldMemVx _, w, h => ⟨.ldMemVx (fieldX w), word_of_mask_F0FF h, rfl⟩
  | .ldVxMem _, w, h => ⟨.ldVxMem (fieldX w), word_of_mask_F0FF h, rfl⟩

/-- A word that a row of the table accepts decodes to an instruction of that row. -/
theorem decodeWord_of_accepts {w : Word} {r : OpRow} (hr : r ∈ opTable) (ha : r.accepts w = true) :
    ∃ i, decodeWord w = .ok i ∧ i.row = r := by
  obtain ⟨i, rfl⟩ := exists_row_of_mem_opTable r hr
  obtain ⟨j, rfl, row⟩ := exists_encode_of_accepts i w ha
  exact ⟨j, decodeWord_encode j, row⟩

/-- A word that decodes is accepted by the row of what it decodes to, since it is that instruction's encoding. -/
theorem accepts_of_decodeWord {w : Word} {i : Instr} (h : decodeWord w = .ok i) : i.row.accepts w = true :=
  encode_of_decodeWord h ▸ row_accepts_encode i

/-- Settles O4: decoding and accepting agree in both directions, and the decoder answers only one instruction, so only one row. -/
theorem decodeMatchesExactlyOneRow : Obligations.DecodeMatchesExactlyOneRow := by
  unfold Obligations.DecodeMatchesExactlyOneRow
  refine ⟨rfl, fun w i h => ⟨row_mem_opTable i, accepts_of_decodeWord h⟩, fun w r hr ha => decodeWord_of_accepts hr ha,
    fun w r r' hr hr' ha ha' => ?disjoint, fun w refused => ?unrecognized⟩
  case disjoint =>
    obtain ⟨i, hi, rfl⟩ := decodeWord_of_accepts hr ha
    obtain ⟨j, hj, rfl⟩ := decodeWord_of_accepts hr' ha'
    cases hi.symm.trans hj
    rfl
  case unrecognized =>
    cases hd : decodeWord w with
    | error e => exact ⟨e, rfl⟩
    | ok i => exact absurd ((accepts_of_decodeWord hd).symm.trans (refused i.row (row_mem_opTable i))) (by decide)

end Sys2Proof.Machine
end

section
/-! The words that do not decode, family by family, as numbers (30_encoding.md R109). -/

namespace Sys2Proof.Machine

theorem fieldD1_eq_iff {w : Word} {d : Nibble} : fieldD1 w = d ↔ w.toNat / 4096 = d.toNat := by
  rw [← BitVec.toNat_inj, fieldD1_toNat]

theorem fieldN_eq_iff {w : Word} {n : Nibble} : fieldN w = n ↔ w.toNat % 16 = n.toNat := by
  rw [← BitVec.toNat_inj, fieldN_toNat]

theorem fieldNN_eq_iff {w : Word} {kk : Byte} : fieldNN w = kk ↔ w.toNat % 256 = kk.toNat := by
  rw [← BitVec.toNat_inj, fieldNN_toNat]

theorem decodeSystem_refuses_iff (w : Word) :
    (∃ e, decodeSystem w = .error e) ↔ w.toNat ≠ 0x0000 ∧ w.toNat ≠ 0x00E0 ∧ w.toNat ≠ 0x00EE := by
  have h0 : w = 0x0000#16 ↔ w.toNat = 0x0000 := BitVec.toNat_inj.symm
  have h1 : w = 0x00E0#16 ↔ w.toNat = 0x00E0 := BitVec.toNat_inj.symm
  have h2 : w = 0x00EE#16 ↔ w.toNat = 0x00EE := BitVec.toNat_inj.symm
  unfold decodeSystem
  split_ifs <;> simp_all

theorem decodeAlu_refuses_iff (w : Word) :
    (∃ e, decodeAlu w = .error e) ↔ w.toNat % 16 ∈ [0x8, 0x9, 0xA, 0xB, 0xC, 0xD, 0xF] := by
  unfold decodeAlu
  simp only [fieldN_eq_iff]
  split_ifs <;> simp_all
  omega

theorem decodeKey_refuses_iff (w : Word) : (∃ e, decodeKey w = .error e) ↔ w.toNat % 256 ∉ [0x9E, 0xA1] := by
  unfold decodeKey
  simp only [fieldNN_eq_iff]
  split_ifs <;> simp_all

theorem decodeMisc_refuses_iff (w : Word) :
    (∃ e, decodeMisc w = .error e) ↔ w.toNat % 256 ∉ [0x07, 0x0A, 0x15, 0x18, 0x1E, 0x29, 0x33, 0x55, 0x65] := by
  unfold decodeMisc
  simp only [fieldNN_eq_iff]
  split_ifs <;> simp_all

theorem zeroNibble_refuses_iff (w : Word) (i : Instr) (e : DecodeError) :
    (∃ e', (if fieldN w = 0x0#4 then Except.ok i else .error e) = Except.error e') ↔ w.toNat % 16 ≠ 0 := by
  simp only [fieldN_eq_iff]
  split_ifs <;> simp_all

/-- Settles O5: by the family of the word; ten of the sixteen families refuse no word. -/
theorem unrecognizedWordsAreTheListedOnes : Obligations.UnrecognizedWordsAreTheListedOnes := by
  unfold Obligations.UnrecognizedWordsAreTheListedOnes
  intro w
  have d1 := fieldD1_toNat w
  rcases nibble_cases (fieldD1 w) with h0 | h1 | h2 | h3 | h4 | h5 | h6 | h7 | h8 | h9 | hA | hB | hC | hD | hE | hF
  · simp [decodeWord_family_0 h0, ← d1, h0, decodeSystem_refuses_iff]
  · simp [decodeWord_family_1 h1, ← d1, h1]
  · simp [decodeWord_family_2 h2, ← d1, h2]
  · simp [decodeWord_family_3 h3, ← d1, h3]
  · simp [decodeWord_family_4 h4, ← d1, h4]
  · simp [decodeWord_family_5_all h5, ← d1, h5, zeroNibble_refuses_iff]
  · simp [decodeWord_family_6 h6, ← d1, h6]
  · simp [decodeWord_family_7 h7, ← d1, h7]
  · simp [decodeWord_family_8 h8, ← d1, h8, decodeAlu_refuses_iff]
  · simp [decodeWord_family_9_all h9, ← d1, h9, zeroNibble_refuses_iff]
  · simp [decodeWord_family_A hA, ← d1, hA]
  · simp [decodeWord_family_B hB, ← d1, hB]
  · simp [decodeWord_family_C hC, ← d1, hC]
  · simp [decodeWord_family_D hD, ← d1, hD]
  · simp [decodeWord_family_E hE, ← d1, hE, decodeKey_refuses_iff]
  · simp [decodeWord_family_F hF, ← d1, hF, decodeMisc_refuses_iff]

end Sys2Proof.Machine
end

section
/-! How many words of each leading nibble decode (30_encoding.md R108): within a family, decoding asks for the remainder of the low
twelve bits by 1, 16, 256 or 4096, so the count is the number of legal remainders times the number of periods. -/

namespace Sys2Proof.Machine

/-- The number of low parts below `n * m` whose remainder by `m` is in the list. -/
theorem length_filter_range_mod (n : Nat) {m : Nat} {residues : List Nat} (hn : residues.Nodup) (hm : ∀ r ∈ residues, r < m) :
    ((List.range (n * m)).filter fun a => decide (a % m ∈ residues)).length = n * residues.length := by
  induction n with
  | zero => simp
  | succ n ih =>
    have period : (((List.range m).map (n * m + ·)).filter fun a => decide (a % m ∈ residues)).length = residues.length := by
      rw [List.filter_map, List.length_map]
      refine List.Perm.length_eq ((List.perm_ext_iff_of_nodup (List.nodup_range.filter _) hn).2 fun a => ?_)
      simp only [List.mem_filter, List.mem_range, Function.comp_apply, Nat.mul_add_mod', decide_eq_true_eq]
      constructor
      · rintro ⟨ha, hr⟩
        rwa [Nat.mod_eq_of_lt ha] at hr
      · intro hr
        exact ⟨hm a hr, by rwa [Nat.mod_eq_of_lt (hm a hr)]⟩
    rw [Nat.succ_mul, List.range_add, List.filter_append, List.length_append, ih, period, Nat.succ_mul]

/-- For the words of each leading nibble that decode: the period of the low twelve bits, and the remainders by it. -/
def legalLowPart : Fin 16 → Nat × List Nat
  | 0x0 => (4096, [0x000, 0x0E0, 0x0EE])
  | 0x5 => (16, [0x0])
  | 0x8 => (16, [0x0, 0x1, 0x2, 0x3, 0x4, 0x5, 0x6, 0x7, 0xE])
  | 0x9 => (16, [0x0])
  | 0xE => (256, [0x9E, 0xA1])
  | 0xF => (256, [0x07, 0x0A, 0x15, 0x18, 0x1E, 0x29, 0x33, 0x55, 0x65])
  | _ => (1, [0])

theorem legalLowPart_nodup : ∀ d, (legalLowPart d).2.Nodup := by decide

theorem legalLowPart_lt_period : ∀ d, ∀ r ∈ (legalLowPart d).2, r < (legalLowPart d).1 := by decide

/-- Every period divides the 4096 low parts of a family. -/
theorem legalLowPart_period_dvd : ∀ d, (legalLowPart d).1 ∣ 4096 := by decide

/-- Periods times remainders: the spec's count for each leading nibble. -/
theorem legalLowPart_words : ∀ d, 4096 / (legalLowPart d).1 * (legalLowPart d).2.length =
    [3, 4096, 4096, 4096, 4096, 256, 4096, 4096, 2304, 256, 4096, 4096, 4096, 4096, 32, 144].getD d.val 0 := by decide

theorem recognized_iff (w : Word) : recognized w = true ↔ ¬ ∃ e, decodeWord w = .error e := by
  unfold recognized
  cases decodeWord w <;> simp

theorem recognized_iff_legalLowPart (d : Fin 16) {a : Nat} (ha : a < 4096) :
    recognized (BitVec.ofNat 16 (d.val * 4096 + a)) = true ↔ a % (legalLowPart d).1 ∈ (legalLowPart d).2 := by
  have value : (BitVec.ofNat 16 (d.val * 4096 + a)).toNat = d.val * 4096 + a :=
    (BitVec.toNat_ofNat ..).trans (Nat.mod_eq_of_lt (by omega))
  have family : (d.val * 4096 + a) / 4096 = d.val := by omega
  have low8 : (d.val * 4096 + a) % 256 = a % 256 := by omega
  have low4 : (d.val * 4096 + a) % 16 = a % 16 := by omega
  rw [recognized_iff, unrecognizedWordsAreTheListedOnes, value, family, low8, low4]
  fin_cases d <;> simp [legalLowPart, Nat.mod_one] <;> omega

/-- Settles O6: the low parts of a family that decode are counted period by period. -/
theorem recognizedWordCounts : Obligations.RecognizedWordCounts := by
  unfold Obligations.RecognizedWordCounts
  refine ⟨fun d => ?_, rfl, rfl⟩
  have periods : 4096 / (legalLowPart d).1 * (legalLowPart d).1 = 4096 := Nat.div_mul_cancel (legalLowPart_period_dvd d)
  have words := length_filter_range_mod (4096 / (legalLowPart d).1) (legalLowPart_nodup d) (legalLowPart_lt_period d)
  rw [periods] at words
  have decoding : ∀ a ∈ List.range 4096,
      recognized (BitVec.ofNat 16 (d.val * 4096 + a)) = decide (a % (legalLowPart d).1 ∈ (legalLowPart d).2) := fun a ha => by
    rw [Bool.eq_iff_iff, recognized_iff_legalLowPart d (List.mem_range.1 ha), decide_eq_true_eq]
  rw [List.filter_congr decoding, words]
  exact legalLowPart_words d

end Sys2Proof.Machine
end

section
/-! What an instruction can do, said once: it raises the fault that `execFault` names, or leaves its effect (40_datapath.md R171,
60_exceptions.md R401). -/

namespace Sys2Proof.Machine

/-- The state an instruction leaves when it raises no fault: `exec_of_no_fault` ties it to the model. -/
def effect : Instr → State → State
  | .nop, s => { s with pc := s.pc + 2 }
  | .cls, s => { s with disp := Display.dark, pc := s.pc + 2 }
  | .ret, s => { s with sp := ⟨s.sp.val - 1, by omega⟩, pc := s.stack[s.sp.val - 1]'(by omega) }
  | .jp nnn, s => { s with pc := nnn.setWidth 16 }
  | .call nnn, s =>
    { s with stack := s.stack.setIfInBounds s.sp.val (s.pc + 2), sp := ⟨min (s.sp.val + 1) 16, by omega⟩, pc := nnn.setWidth 16 }
  | .seImm x nn, s => { s with pc := if s.reg x = nn then s.pc + 4 else s.pc + 2 }
  | .sneImm x nn, s => { s with pc := if s.reg x ≠ nn then s.pc + 4 else s.pc + 2 }
  | .seReg x y, s => { s with pc := if s.reg x = s.reg y then s.pc + 4 else s.pc + 2 }
  | .ldImm x nn, s => s.aluStep .passB x 0 nn
  | .addImm x nn, s => s.aluStep .addNf x (s.reg x) nn
  | .ldReg x y, s => s.aluStep .passB x 0 (s.reg y)
  | .or x y, s => s.aluStep .or x (s.reg x) (s.reg y)
  | .and x y, s => s.aluStep .and x (s.reg x) (s.reg y)
  | .xor x y, s => s.aluStep .xor x (s.reg x) (s.reg y)
  | .addReg x y, s => s.aluStep .add x (s.reg x) (s.reg y)
  | .sub x y, s => s.aluStep .sub x (s.reg x) (s.reg y)
  | .shr x _, s => s.aluStep .shr x (s.reg x) 0
  | .subn x y, s => s.aluStep .subr x (s.reg x) (s.reg y)
  | .shl x _, s => s.aluStep .shl x (s.reg x) 0
  | .se9Reg x y, s => { s with pc := if s.reg x = s.reg y then s.pc + 4 else s.pc + 2 }
  | .ldI nnn, s => { s with i := nnn.setWidth 16, pc := s.pc + 2 }
  | .jpV0 nnn, s => { s with pc := nnn.setWidth 16 + (s.reg 0).setWidth 16 }
  | .rnd x nn, s => (s.aluStep .and x (Config.rnd s.rndDraws) nn).countDraw
  | .drw x y n, s => { s with disp := (s.drawn x y n).1, v := (s.writeFlag (s.drawn x y n).2).v, pc := s.pc + 2 }
  | .skp x, s => { s with pc := if s.keyAt (s.reg x) = some true then s.pc + 4 else s.pc + 2 }
  | .sknp x, s => { s with pc := if s.keyAt (s.reg x) = some false then s.pc + 4 else s.pc + 2 }
  | .ldVxDt x, s => { s with v := (s.writeReg x s.dt).v, pc := s.pc + 2 }
  | .ldVxK x, s =>
    { s with v := s.leastKey.elim s.v fun k => (s.writeReg x k).v, pc := s.leastKey.elim s.pc fun _ => s.pc + 2 }
  | .ldDtVx x, s => { s with dt := s.reg x, pc := s.pc + 2 }
  | .ldStVx x, s => { s with st := s.reg x, pc := s.pc + 2 }
  | .addIVx x, s => { s with i := addIndex s.i (s.reg x), pc := s.pc + 2 }
  | .ldFVx x, s => { s with i := glyphAddress (s.reg x), pc := s.pc + 2 }
  | .ldBVx x, s => { s with mem := s.mem.writeList s.i.toNat (bcdDigits (s.reg x)), pc := s.pc + 2 }
  | .ldMemVx x, s => { s with mem := s.mem.writeList s.i.toNat (s.regBlock x), pc := s.pc + 2 }
  | .ldVxMem x, s => { s with v := loadRegs s.v 0 (s.mem.readList s.i.toNat (x.toNat + 1)), pc := s.pc + 2 }

/-- An instruction whose fault condition holds answers the state before it plus FAULT. -/
theorem exec_of_fault {i : Instr} {s : State} {c : FaultCause} {info : Nat} (h : execFault i s = some (c, info)) :
    exec i s = .next (s.raise c (encode i) info) := by
  cases i
  case ret => obtain ⟨empty, ⟨⟩⟩ := Option.ite_none_right_eq_some.1 h; exact exec_ret_of_empty empty
  case call nnn => obtain ⟨full, ⟨⟩⟩ := Option.ite_none_right_eq_some.1 h; exact exec_call_of_full full nnn
  case drw x y n => obtain ⟨⟨rows, beyond⟩, ⟨⟩⟩ := Option.ite_none_right_eq_some.1 h; exact exec_drw_beyond rows beyond x y
  case skp x => obtain ⟨beyond, ⟨⟩⟩ := Option.ite_none_right_eq_some.1 h; exact exec_skp_beyond beyond
  case sknp x => obtain ⟨beyond, ⟨⟩⟩ := Option.ite_none_right_eq_some.1 h; exact exec_sknp_beyond beyond
  case ldBVx x => obtain ⟨beyond, ⟨⟩⟩ := Option.ite_none_right_eq_some.1 h; exact exec_ldBVx_beyond beyond x
  case ldMemVx x => obtain ⟨beyond, ⟨⟩⟩ := Option.ite_none_right_eq_some.1 h; exact exec_ldMemVx_beyond beyond
  case ldVxMem x => obtain ⟨beyond, ⟨⟩⟩ := Option.ite_none_right_eq_some.1 h; exact exec_ldVxMem_beyond beyond
  all_goals cases h

/-- No fault is recorded only where the condition of the fault fails. -/
theorem not_of_ite_some_eq_none {α : Type} {p : Prop} [Decidable p] {a : α} (h : (if p then some a else none) = none) : ¬ p :=
  fun hp => Option.some_ne_none a ((if_pos hp).symm.trans h)

theorem effect_call_of_room {s : State} (room : s.sp.val < 16) (nnn : Addr12) :
    effect (.call nnn) s = { s with
      stack := s.stack.set s.sp.val (s.pc + 2) room, sp := ⟨s.sp.val + 1, by omega⟩, pc := nnn.setWidth 16 } := by
  have pushed : s.stack.setIfInBounds s.sp.val (s.pc + 2) = s.stack.set s.sp.val (s.pc + 2) room := by
    ext k hk
    simp only [Vector.getElem_set, Vector.getElem_setIfInBounds]
  have top : min (s.sp.val + 1) 16 = s.sp.val + 1 := by omega
  simp only [effect, pushed, top]

/-- An instruction whose fault condition does not hold answers its effect. -/
theorem exec_of_no_fault {i : Instr} {s : State} (h : execFault i s = none) : exec i s = .next (effect i s) := by
  cases i
  case ret => exact exec_ret_of_nonempty (not_of_ite_some_eq_none h)
  case call nnn =>
    have room : s.sp.val < 16 := lt_of_le_of_ne (Nat.le_of_lt_succ s.sp.isLt) (not_of_ite_some_eq_none h)
    rw [exec_call_of_room room, effect_call_of_room room]
  case seImm x nn => exact exec_seImm x nn s
  case sneImm x nn => exact exec_sneImm x nn s
  case seReg x y => exact exec_seReg x y s
  case se9Reg x y => exact (exec_se9Reg x y s).trans (exec_seReg x y s)
  case drw x y n =>
    exact exec_drw_inside ((not_and_or.1 (not_of_ite_some_eq_none h)).imp not_not.1 not_le.1) x y
  case skp x =>
    have index : (s.reg x).toNat < 16 := not_le.1 (not_of_ite_some_eq_none h)
    have key := keyAt_of_index (s := s) (k := ⟨_, index⟩) rfl
    rw [exec_skp_of_index (k := ⟨_, index⟩) rfl]
    simp only [effect, key, Option.some.injEq]
  case sknp x =>
    have index : (s.reg x).toNat < 16 := not_le.1 (not_of_ite_some_eq_none h)
    have key := keyAt_of_index (s := s) (k := ⟨_, index⟩) rfl
    rw [exec_sknp_of_index (k := ⟨_, index⟩) rfl]
    simp only [effect, key, Option.some.injEq]
  case ldVxK x =>
    cases key : s.leastKey with
    | none => simp only [effect, key, Option.elim]; exact exec_ldVxK_of_no_key key x
    | some k => simp only [effect, key, Option.elim]; exact exec_ldVxK_of_leastKey key x
  case ldBVx x => exact exec_ldBVx_inside (not_le.1 (not_of_ite_some_eq_none h)) x
  case ldMemVx x => exact exec_ldMemVx_inside (not_le.1 (not_of_ite_some_eq_none h))
  case ldVxMem x => exact exec_ldVxMem_inside (not_le.1 (not_of_ite_some_eq_none h))
  all_goals rfl

/-- Whatever an instruction does, it is one of these two. -/
theorem exec_cases (i : Instr) (s : State) :
    (∃ c info, execFault i s = some (c, info) ∧ exec i s = .next (s.raise c (encode i) info)) ∨
    (execFault i s = none ∧ exec i s = .next (effect i s)) := by
  cases h : execFault i s with
  | none => exact .inr ⟨rfl, exec_of_no_fault h⟩
  | some f => exact .inl ⟨f.1, f.2, rfl, exec_of_fault h⟩

/-- An effect leaves FAULT as it was. -/
theorem effect_fault (i : Instr) (s : State) : (effect i s).fault = s.fault := by
  cases i <;> rfl

theorem execFault_cause_ne_none {i : Instr} {s : State} {c : FaultCause} {info : Nat} (h : execFault i s = some (c, info)) :
    c ≠ .none := by
  cases i
  case ret | call | drw | skp | sknp | ldBVx | ldMemVx | ldVxMem =>
    obtain ⟨-, ⟨⟩⟩ := Option.ite_none_right_eq_some.1 h
    nofun
  all_goals cases h

/-- Settles O12: an instruction of a running machine raises the fault of the table, or its effect leaves the machine running. -/
theorem executeFaultsAreTheListedOnes : Obligations.ExecuteFaultsAreTheListedOnes := by
  unfold Obligations.ExecuteFaultsAreTheListedOnes
  intro i s t running ht
  obtain ⟨c, info, fault, he⟩ | ⟨no_fault, he⟩ := exec_cases i s <;> cases he.symm.trans ht
  · refine ⟨iff_of_true rfl (by rw [fault]; rfl), fun c' info' h => ?_⟩
    cases fault.symm.trans h
    rfl
  · have goes_on : ¬ (effect i s).halted := by rw [State.halted, effect_fault, running]; decide
    refine ⟨iff_of_false goes_on (by rw [no_fault]; decide), fun c info h => ?_⟩
    cases no_fault.symm.trans h

end Sys2Proof.Machine
end

section
/-! The invariant of the machine along steps and schedules: memory canonical, PC and return addresses bounded, FAULT coherent
(10_state.md R36, 40_datapath.md R161, 60_exceptions.md R403). -/

namespace Sys2Proof.Machine

/-- A step of a running machine faults with a named cause, or leaves the effect of the instruction it fetched. -/
theorem step_running_cases {s : State} (hr : s.running) :
    (∃ c w info, c ≠ .none ∧ step s = .next (s.raise c w info)) ∨
    (∃ i, s.pc.toNat + 1 < 4096 ∧ execFault i s = none ∧ step s = .next (effect i s)) := by
  obtain ⟨inside, fetched⟩ | ⟨-, no_word⟩ := fetchWord_cases s
  · cases decoded : decodeWord (wordOfBytes (s.mem.read s.pc.toNat) (s.mem.read (s.pc.toNat + 1))) with
    | error e => exact .inl ⟨.illegalOpcode, _, _, nofun, step_of_unrecognized hr fetched decoded⟩
    | ok i =>
      rw [step_of_recognized hr fetched decoded]
      obtain ⟨c, info, fault, he⟩ | ⟨no_fault, he⟩ := exec_cases i s
      · exact .inl ⟨c, _, info, execFault_cause_ne_none fault, he⟩
      · exact .inr ⟨i, inside, no_fault, he⟩
  · exact .inl ⟨.fetchOob, _, _, nofun, step_of_no_word hr no_word⟩

/-- An effect keeps memory canonical: its block writes end inside memory, or they would have raised a fault. -/
theorem effect_mem_wf {i : Instr} {s : State} (h : s.mem.wf = true) (no_fault : execFault i s = none) :
    (effect i s).mem.wf = true := by
  cases i
  case ldBVx x =>
    have inside : s.i.toNat + 2 < 4096 := not_le.1 (not_of_ite_some_eq_none no_fault)
    exact writeList_wf h (bcdDigits (s.reg x)) inside
  case ldMemVx x =>
    have inside : s.i.toNat + x.toNat < 4096 := not_le.1 (not_of_ite_some_eq_none no_fault)
    exact writeList_wf h (s.regBlock x) (by rw [regBlock_length]; exact inside)
  all_goals exact h

/-- PC's next value after a fetch inside memory is at most 0x10FE: the largest is 0xFFF + 0xFF, of JP V0 (10_state.md R36). -/
theorem effect_pc_le {s : State} (hpc : s.pc.toNat + 1 < 4096) (hst : ∀ k : Fin 16, s.stack[k].toNat ≤ 0x1000) (i : Instr) :
    (effect i s).pc.toNat ≤ 0x10FE := by
  have seq : (s.pc + 2).toNat ≤ 0x10FE := by bv_omega
  have skip : (s.pc + 4).toNat ≤ 0x10FE := by bv_omega
  have branch (p : Prop) [Decidable p] : (if p then s.pc + 4 else s.pc + 2).toNat ≤ 0x10FE := by
    split
    · exact skip
    · exact seq
  cases i
  case ret => exact (hst ⟨s.sp.val - 1, by omega⟩).trans (by decide)
  case jp nnn | call nnn =>
    have := nnn.isLt
    rw [effect, setWidth_addr_toNat]
    omega
  case jpV0 nnn =>
    have := nnn.isLt
    have := (s.reg 0).isLt
    rw [effect, addr_add_byte_toNat]
    omega
  case seImm | sneImm | seReg | se9Reg | skp | sknp => exact branch _
  case ldVxK x =>
    simp only [effect]
    cases s.leastKey with
    | none => exact (by omega : s.pc.toNat ≤ 0x10FE)
    | some k => exact seq
  all_goals exact seq

/-- A return address is pushed by CALL alone, from a PC inside memory (40_datapath.md R161). -/
theorem effect_stack_le {s : State} (hpc : s.pc.toNat + 1 < 4096) (hst : ∀ k : Fin 16, s.stack[k].toNat ≤ 0x1000) (i : Instr)
    (k : Fin 16) : (effect i s).stack[k].toNat ≤ 0x1000 := by
  cases i
  case call nnn =>
    have pushed : (s.pc + 2).toNat ≤ 0x1000 := by bv_omega
    simp only [effect, Fin.getElem_fin, Vector.getElem_setIfInBounds]
    split
    · exact pushed
    · exact hst k
  all_goals exact hst k

theorem raise_inv {s : State} (h : StateInv s) {c : FaultCause} (hc : c ≠ .none) (w : Word) (info : Nat) :
    StateInv (s.raise c w info) := by
  obtain ⟨hm, hpc, hst, -, -⟩ := h
  exact ⟨hm, hpc, hst, nofun, fun _ => ⟨hc, rfl⟩⟩

/-- A state with the FAULT of a running one has the invariant once its memory is canonical and its PC and stack are in bounds. -/
theorem inv_of_fault_eq {s t : State} (h : StateInv s) (hr : s.running) (hm : t.mem.wf = true) (hpc : t.pc.toNat ≤ 0x10FE)
    (hst : ∀ k : Fin 16, t.stack[k].toNat ≤ 0x1000) (hf : t.fault = s.fault) : StateInv t := by
  obtain ⟨-, -, -, clear, -⟩ := h
  refine ⟨hm, hpc, hst, fun _ => hf.trans (clear hr), fun halted => ?_⟩
  rw [State.halted, hf, hr] at halted
  cases halted

theorem step_inv {s t : State} (h : StateInv s) (ht : step s = .next t) : StateInv t := by
  cases hv : s.fault.valid with
  | true => cases (step_halted hv).symm.trans ht; exact h
  | false =>
    obtain ⟨c, w, info, hc, he⟩ | ⟨i, inside, no_fault, he⟩ := step_running_cases hv <;> cases he.symm.trans ht
    · exact raise_inv h hc w info
    · have ⟨hm, _, hst, _, _⟩ := h
      exact inv_of_fault_eq h hv (effect_mem_wf hm no_fault) (effect_pc_le inside hst i) (effect_stack_le inside hst i)
        (effect_fault i s)

/-- Settles O51: a fault records its cause at PC, and an effect stays inside the bounds, since its word was fetched from memory. -/
theorem stepKeepsTheInvariant : Obligations.StepKeepsTheInvariant := by
  unfold Obligations.StepKeepsTheInvariant
  exact fun _ _ => step_inv

/-- The restarted state has the invariant, whatever the state before: only the count of free bytes comes from it. -/
theorem restart_inv (s : State) : StateInv s.restart := by
  have stack (k : Fin 16) : s.restart.stack[k].toNat ≤ 0x1000 := by
    have zero : s.restart.stack[k] = 0 := Vector.getElem_replicate _
    rw [zero]
    decide
  have entry : (0x200#16).toNat ≤ 0x10FE := by decide
  exact ⟨reset_mem_wf, entry, stack, fun _ => rfl, nofun⟩

/-- Settles O50: a fresh machine is a restarted one. -/
theorem invariantHoldsAtReset : Obligations.InvariantHoldsAtReset := by
  unfold Obligations.InvariantHoldsAtReset
  rw [← restart_reset]
  exact restart_inv State.reset

theorem load_inv {s : State} (h : StateInv s) (hr : s.running) (bytes : List Byte) : StateInv (s.load bytes) := by
  by_cases hl : 3584 < bytes.length
  · rw [State.load_too_long hr hl]
    exact raise_inv h (c := .loadOob) nofun 0 bytes.length
  · have ⟨hm, hpc, hst, _, _⟩ := h
    rw [State.load_fits hr (not_lt.1 hl)]
    exact inv_of_fault_eq h hr (writeList_wf hm bytes (by omega)) hpc hst rfl

theorem State.setKey_running {s : State} (hr : s.running) (k : Nibble) (p : Bool) :
    s.setKey k p = { s with key := s.key.set k.toNat p k.isLt } :=
  if_neg (Bool.eq_false_iff.1 hr)

/-- Every transaction keeps the invariant, in a halted machine because only RESET changes it. -/
theorem transact_inv {tr : Transaction} {s t : State} (h : StateInv s) (ht : transact tr s = .next t) : StateInv t := by
  by_cases reset : tr = .reset
  · subst reset
    cases ht
    exact restart_inv s
  cases hv : s.fault.valid with
  | true => cases (transact_halted hv reset).symm.trans ht; exact h
  | false =>
    have ⟨hm, hpc, hst, _, _⟩ := h
    cases tr with
    | reset => exact absurd rfl reset
    | load bytes => cases ht; exact load_inv h hv bytes
    | step => exact step_inv h ht
    | tick => cases ht; rw [State.tick_running hv]; exact inv_of_fault_eq h hv hm hpc hst rfl
    | setKey k p => cases ht; rw [State.setKey_running hv]; exact inv_of_fault_eq h hv hm hpc hst rfl
    | readDisplay => cases ht; exact h
    | readFault => cases ht; exact h

theorem transactAll_inv {ts : List Transaction} {s t : State} (h : StateInv s) (ht : transactAll ts s = .next t) : StateInv t := by
  induction ts generalizing s with
  | nil => cases ht; exact h
  | cons tr ts ih =>
    unfold transactAll at ht
    cases first : transact tr s with
    | next s' => rw [first] at ht; exact ih (transact_inv h first) ht
    | fault r => rw [first] at ht; cases ht
    | refused r => rw [first] at ht; cases ht

/-- Settles O52: by induction on the schedule, each transaction keeping the invariant. -/
theorem schedulesKeepTheInvariant : Obligations.SchedulesKeepTheInvariant := by
  unfold Obligations.SchedulesKeepTheInvariant
  exact fun _ _ _ => transactAll_inv

end Sys2Proof.Machine
end

section
/-! The step and the faults of the whole machine: totality, precision, the order of the checks, and the halted state
(40_datapath.md sections 2 and 7, 60_exceptions.md section 1). -/

namespace Sys2Proof.Machine

/-- Settles O8: the two bytes are the fetched word, and a step runs what it decodes to. -/
theorem stepRunsTheDecodedInstruction : Obligations.StepRunsTheDecodedInstruction := by
  unfold Obligations.StepRunsTheDecodedInstruction
  exact fun _ _ running inside decoded => step_of_recognized running (fetchWord_inside inside) decoded

/-- Settles O11: a halted machine answers itself, a running one the state with its fault or the instruction's effect. -/
theorem stepAlwaysAnswersANextState : Obligations.StepAlwaysAnswersANextState := by
  unfold Obligations.StepAlwaysAnswersANextState
  intro s
  cases hv : s.fault.valid with
  | true => exact ⟨s, step_halted hv⟩
  | false =>
    obtain ⟨c, w, info, -, he⟩ | ⟨i, -, -, he⟩ := step_running_cases hv
    · exact ⟨_, he⟩
    · exact ⟨_, he⟩

theorem load_running_cases {s : State} (hr : s.running) (bytes : List Byte) :
    s.load bytes = s.raise .loadOob 0 bytes.length ∨ (s.load bytes).running := by
  by_cases hl : 3584 < bytes.length
  · exact .inl (State.load_too_long hr hl)
  · rw [State.load_fits hr (not_lt.1 hl)]
    exact .inr hr

/-- A transaction of a running machine raises a fault with a named cause, or leaves the machine running. -/
theorem transact_running_cases {s : State} (hr : s.running) (tr : Transaction) :
    (∃ c w info, c ≠ .none ∧ transact tr s = .next (s.raise c w info)) ∨ (∃ t, t.running ∧ transact tr s = .next t) := by
  cases tr with
  | reset => exact .inr ⟨_, rfl, rfl⟩
  | load bytes =>
    obtain fault | running := load_running_cases hr bytes
    · exact .inl ⟨.loadOob, _, _, nofun, congrArg Host.Outcome.next fault⟩
    · exact .inr ⟨_, running, rfl⟩
  | step =>
    obtain fault | ⟨i, -, -, he⟩ := step_running_cases hr
    · exact .inl fault
    · exact .inr ⟨_, (congrArg FaultStatus.valid (effect_fault i s)).trans hr, he⟩
  | tick => exact .inr ⟨_, by rw [State.tick_running hr]; exact hr, rfl⟩
  | setKey k p => exact .inr ⟨_, by rw [State.setKey_running hr]; exact hr, rfl⟩
  | readDisplay => exact .inr ⟨_, hr, rfl⟩
  | readFault => exact .inr ⟨_, hr, rfl⟩

/-- Settles O13: a transaction that halts a running machine has raised a fault, which writes FAULT alone and records PC. -/
theorem faultsArePrecise : Obligations.FaultsArePrecise := by
  unfold Obligations.FaultsArePrecise
  intro tr s t running ht halted
  obtain ⟨c, w, info, named, he⟩ | ⟨t', running', he⟩ := transact_running_cases running tr <;> cases he.symm.trans ht
  · exact ⟨rfl, rfl, named⟩
  · cases halted.symm.trans running'

/-- Settles O14: the step's own case split, in its order, and for a decoded word the instruction's own faults. -/
theorem stepFaultPriority : Obligations.StepFaultPriority := by
  unfold Obligations.StepFaultPriority
  intro s t running ht
  refine ⟨fun beyond => ?fetch, fun w e fetched refused => ?decode, fun w i fetched decoded => ?execute⟩
  case fetch =>
    cases (step_of_no_word running (fetchWord_beyond beyond)).symm.trans ht
    rfl
  case decode =>
    cases (step_of_unrecognized running fetched refused).symm.trans ht
    rfl
  case execute =>
    rw [step_of_recognized running fetched decoded] at ht
    obtain ⟨halts, fault⟩ := executeFaultsAreTheListedOnes i s t running ht
    exact ⟨halts, fun c info h => by rw [fault c info h]⟩

/-- Settles O16: by induction on the schedule, no transaction of which changes the halted state. -/
theorem onlyResetLeavesTheHaltedState : Obligations.OnlyResetLeavesTheHaltedState := by
  unfold Obligations.OnlyResetLeavesTheHaltedState
  intro ts s halted no_reset
  induction ts with
  | nil => rfl
  | cons tr ts ih =>
    have first : tr ≠ .reset := (List.ne_of_not_mem_cons no_reset).symm
    simp only [transactAll, transact_halted halted first]
    exact ih (List.not_mem_of_not_mem_cons no_reset)

theorem run_succ_of_step {M : Host.Core} {s s' : M.State} (h : M.step s = .next s') (n : Nat) :
    M.run (n + 1) s = M.run n s' := by
  simp only [Host.Core.run, h]

/-- Settles O17: by induction on the number of steps, each of which answers the halted state itself. -/
theorem haltedRunIsAFixedPoint : Obligations.HaltedRunIsAFixedPoint := by
  unfold Obligations.HaltedRunIsAFixedPoint
  intro n s halted
  induction n with
  | zero => rfl
  | succ n ih => exact (run_succ_of_step (M := Sys2Proof.core) (step_halted halted) n).trans ih

end Sys2Proof.Machine
end

section
/-! Two instructions in a row: RET after CALL, Fx65 and the fetch after Fx55, and a second draw (95_test_vectors.md section 1,
43_index_memory.md section 2, 20_memory.md section 9, 44_display_random.md R304). -/

namespace Sys2Proof.Machine

/-- Settles O22: CALL leaves SP above 0 with PC + 2 in the slot below it, which RET pops. -/
theorem returnGoesBackToTheCall : Obligations.ReturnGoesBackToTheCall := by
  unfold Obligations.ReturnGoesBackToTheCall
  intro nnn s t u room called hstack hsp
  cases (exec_call_of_room room nnn).symm.trans called
  have sp : u.sp.val = s.sp.val + 1 := congrArg Fin.val hsp
  have back : s.sp.val = u.sp.val - 1 := by omega
  have popped : u.stack[u.sp.val - 1]'(by omega) = s.pc + 2 := by
    simp only [hstack, ← back, Vector.getElem_set_self]
  rw [exec_ret_of_nonempty (by omega), popped]
  simp only [← back]

/-- What memory holds after a block store: V0..Vx from I up. -/
theorem read_of_stored {s : State} {x : Nibble} (hm : s.mem.wf = true) (h : s.i.toNat + x.toNat < 4096) {k : Nibble}
    (hk : k.toNat ≤ x.toNat) : (s.mem.writeList s.i.toNat (s.regBlock x)).read (s.i.toNat + k.toNat) = s.reg k := by
  have len : (s.regBlock x).length = x.toNat + 1 := regBlock_length s x
  exact (read_writeList_inside hm (by omega) (by omega)).trans (regBlock_getElem _)

/-- Settles O35: the load reads the addresses of the block, which hold the registers stored. -/
theorem loadAfterStoreGivesBackTheRegisters : Obligations.LoadAfterStoreGivesBackTheRegisters := by
  unfold Obligations.LoadAfterStoreGivesBackTheRegisters
  intro x s t u hm inside stored hmem hi
  cases (exec_ldMemVx_inside inside).symm.trans stored
  refine ⟨_, exec_ldVxMem_inside (hi ▸ inside), fun k => ?_⟩
  simp only [State.reg, loadRegs_readList_getElem, Nat.lt_succ_iff, hmem, hi]
  exact if_ctx_congr Iff.rfl (read_of_stored hm inside) fun _ => rfl

/-- Settles O36: the next PC is inside the block, so the word fetched there is made of two stored registers. -/
theorem storedBytesAreFetchedNext : Obligations.StoredBytesAreFetchedNext := by
  unfold Obligations.StoredBytesAreFetchedNext
  intro x a b s t hm inside stored next within hpc
  cases (exec_ldMemVx_inside inside).symm.trans stored
  have second : (s.pc + 2).toNat + 1 = s.i.toNat + b.toNat := by omega
  have high : (s.mem.writeList s.i.toNat (s.regBlock x)).read (s.pc + 2).toNat = s.reg a := by
    rw [hpc]
    exact read_of_stored hm inside (by omega)
  have low : (s.mem.writeList s.i.toNat (s.regBlock x)).read ((s.pc + 2).toNat + 1) = s.reg b := by
    rw [second]
    exact read_of_stored hm inside within
  rw [fetchWord_inside (second ▸ (by omega : s.i.toNat + b.toNat < 4096))]
  exact congrArg some (congrArg₂ wordOfBytes high low)

/-- A draw reads I, two registers and the bytes of its rows: where these agree, it touches the same cells. -/
theorem spriteTouches_congr {s u : State} {x y n : Nibble} (hi : u.i = s.i) (hx : u.reg x = s.reg x) (hy : u.reg y = s.reg y)
    (hm : ∀ row, row < n.toNat → u.mem.read (s.i.toNat + row) = s.mem.read (s.i.toNat + row)) (k : Nat) :
    SpriteTouches u x y n k ↔ SpriteTouches s x y n k := by
  simp only [SpriteTouches, hi, hx, hy]
  refine exists_congr fun row => exists_congr fun col => and_congr_right fun hrow => ?_
  rw [hm row hrow]

/-- After a draw VF is 1 exactly when some touched cell was lit before it. -/
theorem flag_of_drawn_eq_one_iff (s : State) (x y n : Nibble) :
    flagByte (s.drawn x y n).2 = 1 ↔ ∃ k, SpriteTouches s x y n k ∧ Display.lit s.disp k = true := by
  rw [← drawn_collides_iff]
  cases (s.drawn x y n).2 <;> decide

theorem flagByte_eq_zero_of_ne_one {f : Bool} (h : flagByte f ≠ 1) : flagByte f = 0 := by
  cases f
  · rfl
  · exact absurd rfl h

/-- A cell flipped exactly when `p` holds, twice, is back. -/
theorem eq_of_flipped_twice {a b c : Bool} {p : Prop} (first : b ≠ a ↔ p) (second : c ≠ b ↔ p) : c = a := by
  have both : c ≠ b ↔ b ≠ a := second.trans first.symm
  clear first second
  revert a b c
  decide

/-- Settles O40: the second draw touches the cells of the first, so it flips them back, and what it finds lit the first found
unlit. -/
theorem drawingTwiceRestoresTheDisplay : Obligations.DrawingTwiceRestoresTheDisplay := by
  unfold Obligations.DrawingTwiceRestoresTheDisplay
  intro x y n s t u w _ _ inside first hdisp hi hx hy hm second
  cases (exec_drw_inside inside x y).symm.trans first
  cases (exec_drw_inside (hi ▸ inside) x y).symm.trans second
  have same := spriteTouches_congr (n := n) hi hx hy hm
  have flips := drawn_lit_ne_iff s x y n
  have flips_back (k : Nat) : Display.lit (u.drawn x y n).1 k ≠ Display.lit (s.drawn x y n).1 k ↔ SpriteTouches s x y n k := by
    rw [← same k, ← drawn_lit_ne_iff u x y n k, hdisp]
  have flag_iff_lit : flagByte (u.drawn x y n).2 = 1 ↔
      ∃ k, SpriteTouches s x y n k ∧ Display.lit (s.drawn x y n).1 k = true := by
    simp only [flag_of_drawn_eq_one_iff, same, hdisp]
  have flag_iff_unlit : flagByte (u.drawn x y n).2 = 1 ↔ ∃ k, SpriteTouches s x y n k ∧ Display.lit s.disp k = false := by
    refine flag_iff_lit.trans (exists_congr fun k => and_congr_right fun touched => ?_)
    rw [Bool.eq_not.2 ((flips k).2 touched), Bool.not_eq_true']
  have flag := writeFlag_reg_flag u (u.drawn x y n).2
  refine ⟨flips, display_ext fun k => eq_of_flipped_twice (flips k) (flips_back k), ?_, ?_, fun dark => ⟨?_, ?_⟩⟩
  · exact (Eq.congr_left flag).trans flag_iff_lit
  · exact (Eq.congr_left flag).trans flag_iff_unlit
  · rintro ⟨k, touched⟩
    exact flag.trans (flag_iff_unlit.2 ⟨k, touched, dark k touched⟩)
  · intro untouched
    refine flag.trans (flagByte_eq_zero_of_ne_one fun one => ?_)
    obtain ⟨k, touched, -⟩ := flag_iff_unlit.1 one
    exact untouched k touched

end Sys2Proof.Machine
end

section
/-! What an instruction writes: one lemma for each kind of place, over the instructions that do not list it (40_datapath.md R171). -/

namespace Sys2Proof.Machine

theorem effect_reg_of_not_written {i : Instr} {s : State} {r : Nibble} (h : writes i s (.reg r) = false) :
    (effect i s).reg r = s.reg r := by
  have other {x : Nibble} (hx : (Loc.reg r == Loc.reg x) = false) : r ≠ x := fun e => by simp [e] at hx
  cases i
  case ldImm | addImm | ldReg | or | and | xor => exact (aluStep_reg_of_no_flag rfl s _ r).trans (if_neg (other h))
  case rnd x nn =>
    exact (aluStep_reg_of_no_flag rfl s x r).trans (if_neg (other (Bool.or_eq_false_iff.1 h).1))
  case addReg | sub | shr | subn | shl =>
    obtain ⟨dest, flag⟩ := Bool.or_eq_false_iff.1 h
    exact (aluStep_reg_of_flag rfl s _ r).trans ((if_neg (other flag)).trans (if_neg (other dest)))
  case drw x y n => exact writeFlag_reg_of_ne (beq_eq_false_iff_ne.1 h) s _
  case ldVxDt x => exact (writeReg_reg s x r s.dt).trans (if_neg (other h))
  case ldVxK x =>
    cases key : s.leastKey with
    | none => simp only [effect, key]; rfl
    | some k => simp only [effect, key]; exact (writeReg_reg s x r k).trans (if_neg (other h))
  case ldVxMem x =>
    have above : ¬ r.toNat < x.toNat + 1 := fun e => of_decide_eq_false h (Nat.le_of_lt_succ e)
    exact (loadRegs_readList_getElem s.v s.mem s.i.toNat (x.toNat + 1) r.isLt).trans (if_neg above)
  all_goals rfl

theorem effect_i_of_not_written {i : Instr} {s : State} (h : writes i s .index = false) : (effect i s).i = s.i := by
  cases i
  case ldI | addIVx | ldFVx => cases h
  all_goals rfl

theorem effect_sp_of_not_written {i : Instr} {s : State} (h : writes i s .sp = false) : (effect i s).sp = s.sp := by
  cases i
  case ret | call => cases h
  all_goals rfl

theorem effect_stack_of_not_written {i : Instr} {s : State} {k : Fin 16} (h : writes i s (.stack k) = false) :
    (effect i s).stack[k] = s.stack[k] := by
  cases i
  case call nnn =>
    have other : s.sp.val ≠ k.val := fun e => by simp [writes, e] at h
    exact Vector.getElem_setIfInBounds_ne k.isLt other
  all_goals rfl

theorem effect_dt_of_not_written {i : Instr} {s : State} (h : writes i s .dt = false) : (effect i s).dt = s.dt := by
  cases i
  case ldDtVx => cases h
  all_goals rfl

theorem effect_st_of_not_written {i : Instr} {s : State} (h : writes i s .st = false) : (effect i s).st = s.st := by
  cases i
  case ldStVx => cases h
  all_goals rfl

theorem effect_key (i : Instr) (s : State) : (effect i s).key = s.key := by
  cases i <;> rfl

/-- Only CLS and DRW write the display, and they list every cell. -/
theorem effect_disp_of_not_written {i : Instr} {s : State} {k : Nat} (h : writes i s (.cell k) = false) :
    (effect i s).disp = s.disp := by
  cases i
  case cls | drw => cases h
  all_goals rfl

theorem effect_mem_of_not_written {i : Instr} {s : State} {a : Nat} (hm : s.mem.wf = true) (no_fault : execFault i s = none)
    (h : writes i s (.mem a) = false) : (effect i s).mem.read a = s.mem.read a := by
  cases i
  case ldBVx x =>
    have inside : s.i.toNat + 2 < 4096 := not_le.1 (not_of_ite_some_eq_none no_fault)
    have outside := of_decide_eq_false h
    have len : (bcdDigits (s.reg x)).length = 3 := rfl
    exact read_writeList_outside hm (by omega) (by omega)
  case ldMemVx x =>
    have inside : s.i.toNat + x.toNat < 4096 := not_le.1 (not_of_ite_some_eq_none no_fault)
    have outside := of_decide_eq_false h
    have len : (s.regBlock x).length = x.toNat + 1 := regBlock_length s x
    exact read_writeList_outside hm (by omega) (by omega)
  all_goals rfl

theorem effect_rndDraws_of_not_written {i : Instr} {s : State} (h : writes i s .draws = false) :
    (effect i s).rndDraws = s.rndDraws := by
  cases i
  case rnd => simp [writes] at h
  all_goals rfl

theorem effect_agreesAt_of_not_written {i : Instr} {s : State} (hm : s.mem.wf = true) (no_fault : execFault i s = none)
    {l : Loc} (h : writes i s l = false) : agreesAt s (effect i s) l := by
  cases l with
  | reg r => exact effect_reg_of_not_written h
  | index => exact effect_i_of_not_written h
  | sp => exact effect_sp_of_not_written h
  | stack k => exact effect_stack_of_not_written h
  | dt => exact effect_dt_of_not_written h
  | st => exact effect_st_of_not_written h
  | key k => exact congrArg (·[k]) (effect_key i s)
  | cell k => exact congrArg (Display.lit · k) (effect_disp_of_not_written h)
  | mem a => exact effect_mem_of_not_written hm no_fault h
  | draws => exact effect_rndDraws_of_not_written h

/-- A fault agrees with the state before it at every place: it writes FAULT, which is no place of the table. -/
theorem raise_agreesAt (s : State) (c : FaultCause) (w : Word) (info : Nat) (l : Loc) : agreesAt s (s.raise c w info) l := by
  cases l <;> rfl

/-- Settles O53: a fault writes FAULT alone, and an effect leaves FAULT and every place its instruction does not list. -/
theorem instructionsWriteOnlyTheirDestinations : Obligations.InstructionsWriteOnlyTheirDestinations := by
  unfold Obligations.InstructionsWriteOnlyTheirDestinations
  intro i s t hm ht
  obtain ⟨c, info, -, he⟩ | ⟨no_fault, he⟩ := exec_cases i s <;> cases he.symm.trans ht
  · exact ⟨fun l _ => raise_agreesAt s c _ info l, rfl, .inr rfl⟩
  · exact ⟨fun l => effect_agreesAt_of_not_written hm no_fault, effect_key i s, .inl (effect_fault i s)⟩

end Sys2Proof.Machine
end

section
/-! What an instruction reads: where neither its fault nor its effect depends on a field, changing the field before and after is
the same (10_state.md sections 6 and 7, 40_datapath.md R143). -/

namespace Sys2Proof.Machine

/-- The answer of an instruction from its fault and its effect: how every statement on what an instruction reads is reduced to
those two. -/
theorem exec_of_update {i : Instr} {s s' t : State} {update : State → State} (ht : exec i s = .next t)
    (fault : execFault i s' = execFault i s) (raises : ∀ c w info, s'.raise c w info = update (s.raise c w info))
    (leaves : effect i s' = update (effect i s)) : exec i s' = .next (update t) := by
  obtain ⟨c, info, h, he⟩ | ⟨h, he⟩ := exec_cases i s <;> cases he.symm.trans ht
  · rw [exec_of_fault (fault.trans h), raises]
  · rw [exec_of_no_fault (fault.trans h), leaves]

/-- Settles O54: of the other instructions neither fault nor effect mentions KEY. -/
theorem onlyKeyInstructionsReadKeys : Obligations.OnlyKeyInstructionsReadKeys := by
  unfold Obligations.OnlyKeyInstructionsReadKeys
  intro i s t ks not_skp not_sknp not_ldVxK ht
  have leaves : effect i { s with key := ks } = { effect i s with key := ks } := by
    cases i
    case skp x => exact absurd rfl (not_skp x)
    case sknp x => exact absurd rfl (not_sknp x)
    case ldVxK x => exact absurd rfl (not_ldVxK x)
    all_goals rfl
  exact exec_of_update (update := ({ · with key := ks })) ht (by cases i <;> rfl) (fun _ _ _ => rfl) leaves

/-- Settles O55: DT is in the effect of Fx07 and Fx15 alone, ST in that of Fx18 alone, and the writers do not read the old value. -/
theorem timersAreReadOnlyByFx07 : Obligations.TimersAreReadOnlyByFx07 := by
  unfold Obligations.TimersAreReadOnlyByFx07
  intro i s t b ht
  refine ⟨fun not_read not_written => ?dt, fun not_written => ?st, ?dt_written, ?st_written⟩
  case dt =>
    have leaves : effect i { s with dt := b } = { effect i s with dt := b } := by
      cases i
      case ldVxDt x => exact absurd rfl (not_read x)
      case ldDtVx x => exact absurd rfl (not_written x)
      all_goals rfl
    exact exec_of_update (update := ({ · with dt := b })) ht (by cases i <;> rfl) (fun _ _ _ => rfl) leaves
  case st =>
    have leaves : effect i { s with st := b } = { effect i s with st := b } := by
      cases i
      case ldStVx x => exact absurd rfl (not_written x)
      all_goals rfl
    exact exec_of_update (update := ({ · with st := b })) ht (by cases i <;> rfl) (fun _ _ _ => rfl) leaves
  case dt_written =>
    rintro ⟨x, rfl⟩
    exact (exec_ldDtVx x { s with dt := b }).trans ((exec_ldDtVx x s).symm.trans ht)
  case st_written =>
    rintro ⟨x, rfl⟩
    exact (exec_ldStVx x { s with st := b }).trans ((exec_ldStVx x s).symm.trans ht)

/-- Settles O56: of the other instructions neither fault nor effect mentions the count of drawn bytes. -/
theorem onlyRndReadsTheRandomByte : Obligations.OnlyRndReadsTheRandomByte := by
  unfold Obligations.OnlyRndReadsTheRandomByte
  intro i s t n not_rnd ht
  have leaves : effect i { s with rndDraws := n } = { effect i s with rndDraws := n } := by
    cases i
    case rnd x nn => exact absurd rfl (not_rnd x nn)
    all_goals rfl
  exact exec_of_update (update := ({ · with rndDraws := n })) ht (by cases i <;> rfl) (fun _ _ _ => rfl) leaves

end Sys2Proof.Machine
end

section
/-! Cxnn for every random byte (44_display_random.md R301; the counter is log entry 2). -/

namespace Sys2Proof.Machine

/-- On the random byte `r`, Cxnn writes `r AND nn` to Vx, moves PC by 2 and counts the byte. -/
theorem execRndWith_spec (r : Byte) (x : Nibble) (nn : Byte) (s : State) : ∃ t, execRndWith r x nn s = .next t ∧
    t = { s with v := t.v, pc := s.pc + 2, rndDraws := s.rndDraws + 1 } ∧
    (∀ k, (t.reg x).getLsbD k = (r.getLsbD k && nn.getLsbD k)) ∧ ∀ k, k ≠ x → t.reg k = s.reg k := by
  obtain ⟨frame, dest, others⟩ := aluStep_of_no_flag s .and x r nn rfl
  have masked : (s.aluStep .and x r nn).countDraw.reg x = r &&& nn := dest
  exact ⟨_, rfl, congrArg State.countDraw frame, fun k => by rw [masked, BitVec.getLsbD_and], others⟩

/-- Settles O38: the byte of the step is one of those the lemma speaks of, and the mask clears a bit that nn has clear. -/
theorem randomIsMaskedByTheImmediate : Obligations.RandomIsMaskedByTheImmediate := by
  unfold Obligations.RandomIsMaskedByTheImmediate
  refine fun x nn => ⟨decodeWord_Cxnn x nn, fun s => ⟨rfl, ?_, fun r => execRndWith_spec r x nn s⟩⟩
  obtain ⟨t, ht, frame, bits, others⟩ := execRndWith_spec (Config.rnd s.rndDraws) x nn s
  exact ⟨t, ht, frame, fun k clear => by rw [bits, clear, Bool.and_false], others⟩

end Sys2Proof.Machine
end

section
/-! SET_KEY of a running machine, and the two reads (40_datapath.md R141, R144, R145). -/

namespace Sys2Proof.Machine

/-- Settles O48: one slot of KEY is set. -/
theorem setKeySetsOneKey : Obligations.SetKeySetsOneKey := by
  unfold Obligations.SetKeySetsOneKey
  refine fun k p s running => ⟨_, congrArg Host.Outcome.next (State.setKey_running running k p), rfl, fun j => ?_⟩
  simp only [Fin.getElem_fin, Vector.getElem_set, eq_comm]

/-- The cell at row `row` and column `col` is bit `col` of that row. -/
theorem display_lit_row_col (d : Display) (row : Fin 32) {col : Nat} (h : col < 64) :
    Display.lit d (row.val * 64 + col) = d[row].getLsbD col := by
  have hrow : (row.val * 64 + col) / 64 = row.val := by omega
  have hcol : (row.val * 64 + col) % 64 = col := by omega
  simp only [Display.lit, hrow, hcol, row.isLt, dif_pos, Fin.getElem_fin]

/-- Settles O49: the reads answer the state's own fields, the display row by row. -/
theorem readsAnswerAndChangeNothing : Obligations.ReadsAnswerAndChangeNothing := by
  unfold Obligations.ReadsAnswerAndChangeNothing
  exact fun s => ⟨rfl, rfl, rfl, s.disp, rfl, fun row _ h => (display_lit_row_col s.disp row h).symm⟩

end Sys2Proof.Machine
end
